-- ==== Sys2Proof/Word.lean ====
section
/-! DEFINITION. The word types of WPPM-CORE (spec/10_state.md R21, R34; spec/30_encoding.md R70).
All of them are unsigned (spec/00_scope.md R10). -/

namespace Sys2Proof

/-- One byte of a wireless payload or of a serialised trace (R50(3), R83). -/
abbrev Byte := BitVec 8

/-- A channel value: a pulse width in microseconds, `W_CH` = 16 bits, unsigned (R21, R8). -/
abbrev Channel := BitVec 16

/-- A sample of the microsecond clock, `W_TIME` = 32 bits, wrapping (R34, R151, R8); also a length of time. -/
abbrev Time := BitVec 32

/-- A channel index as the event word and the index registers hold it (R23, R29, R70). -/
abbrev Index := BitVec 8

/-- One primitive operation as a 64-bit event word (R70). -/
abbrev EventWord := BitVec 64

end Sys2Proof
end

