-- ==== Sys2Proof/Config.lean ====
section
/-! DEFINITION. The static parameters of WPPM-CORE (spec/00_scope.md R8). They are a configuration record, not
state of the hardware: the machine state carries one so that every statement over all states holds for every
configuration, and no operation changes it (R8, R137). The constraints of R9 are in Machine/Constraints.lean. -/

namespace Sys2Proof

/-- `ROLE`, OPEN per instance (R2, R8): the transmitter node or the receiver node. -/
inductive Role where
  | tx
  | rx
  deriving DecidableEq, Repr

/-- The parameters of R8, in the units of its table (channels, or microseconds). `ROLE` is not a field: it is
which node record an instance holds (Machine/Node.lean). `W_CH` and `W_TIME` are the widths of `Channel` and
`Time`; `PAYLOAD_LEN` is derived. -/
structure Params where
  /-- `N_CH`, number of channels. -/
  nCh : Nat
  /-- `FRAME_PERIOD`. -/
  framePeriod : Nat
  /-- `PULSE_WIDTH`. -/
  pulseWidth : Nat
  /-- `SYNC_THRESHOLD`. -/
  syncThreshold : Nat
  /-- `SRC_LOSS_THRESHOLD`. -/
  srcLossThreshold : Nat
  /-- `SNK_LOSS_THRESHOLD`. -/
  snkLossThreshold : Nat
  /-- `CH_MIN`. -/
  chMin : Nat
  /-- `CH_MAX`. -/
  chMax : Nat
  /-- `CH_RESET`. -/
  chReset : Nat
  /-- `TICK_PERIOD`: a property of the environment, read by no operation (R15(d), R158). -/
  tickPeriod : Nat
  /-- `ENC_START_DELAY`, OPEN, default 0 (D14). -/
  encStartDelay : Nat
  /-- `PEER_ADDR`, OPEN and opaque: carried into the SEND record, never inspected (R8, D27).
  DESIGN CHOICE: the spec gives it no format, so it is an uninterpreted number (log 5). Safe. -/
  peerAddr : Nat
  deriving DecidableEq, Repr

/-- The values this hardware takes (table of R8). The peer address 0 is a DESIGN CHOICE (log 5). -/
def Params.standard : Params where
  nCh := 8
  framePeriod := 22500
  pulseWidth := 300
  syncThreshold := 3000
  srcLossThreshold := 100000
  snkLossThreshold := 100000
  chMin := 988
  chMax := 2012
  chReset := 1500
  tickPeriod := 10000
  encStartDelay := 0
  peerAddr := 0

/-- `PAYLOAD_LEN = 2 × N_CH` bytes (R8, R53). -/
def Params.payloadLen (p : Params) : Nat := 2 * p.nCh

/-- The byte at a position of a delivery that reports more bytes than it brings: R80 examines the length alone and states
no value for a byte that was not delivered. A FREE VALUE, one for each delivery (by its place in the trace) and each
position; nothing constrains it. DESIGN CHOICE, log 18. Safe. -/
opaque Config.undeliveredByte : Nat → Nat → Byte

end Sys2Proof
end

