-- ==== Sys2Proof/Machine/Constraints.lean ====
section
/-! DEFINITION. The constraints the parameters must meet (spec/00_scope.md R9, D5). A configuration that breaks
one is refused, not given a meaning. -/

namespace Sys2Proof.Machine

/-- R9(a): an index and the value `N_CH` fit 8 bits. -/
abbrev IndexFits (p : Params) : Prop := 1 ≤ p.nCh ∧ p.nCh ≤ 255

/-- R9(b): no channel low period is negative, and every channel value fits 16 bits. -/
abbrev ChannelBand (p : Params) : Prop :=
  p.pulseWidth ≤ p.chMin ∧ p.chMin ≤ p.chReset ∧ p.chReset ≤ p.chMax ∧ p.chMax ≤ 65535

/-- R9(c): the frame budget. -/
abbrev FrameBudget (p : Params) : Prop := p.nCh * p.chMax + p.pulseWidth ≤ p.framePeriod

/-- R9(d): every interval the decoder stores fits 16 bits. -/
abbrev SyncFits (p : Params) : Prop := p.syncThreshold ≤ 65535

/-- R9(e): a channel is never taken for a sync gap, and the frame gap always is. -/
abbrev SyncSeparates (p : Params) : Prop :=
  p.chMax ≤ p.syncThreshold ∧ p.framePeriod - p.nCh * p.chMax > p.syncThreshold

/-- R9(f): every threshold and period is below 2^31; and the range R8 gives `ENC_START_DELAY`. -/
abbrev TimesFit (p : Params) : Prop :=
  p.framePeriod < 2 ^ 31 ∧ p.syncThreshold < 2 ^ 31 ∧ p.srcLossThreshold < 2 ^ 31 ∧
  p.snkLossThreshold < 2 ^ 31 ∧ p.tickPeriod < 2 ^ 31 ∧ p.encStartDelay < 2 ^ 31

/-- The check of R9: all of its constraints hold. -/
def legal (p : Params) : Bool :=
  decide (IndexFits p ∧ ChannelBand p ∧ FrameBudget p ∧ SyncFits p ∧ SyncSeparates p ∧ TimesFit p)

/-- The configuration is one R9 accepts. -/
abbrev Legal (p : Params) : Prop := legal p = true

end Sys2Proof.Machine
end

