-- ==== Sys2Proof/Syntax.lean ====
section
/-! DEFINITION. The operations of WPPM-CORE (spec/30_encoding.md R71, R73, R79, R80). A primitive operation is
what stands for an instruction; a pseudo-operation is a fixed sequence of primitives. -/

namespace Sys2Proof

/-- The nine primitive operations of R73 (spec/opcode_table.json), each with the operands of its format (R71). -/
inductive Instr where
  /-- `DEC_EDGE @t` (R90): a falling edge of the PPM input. -/
  | decEdge (t : Time)
  /-- `SRC_CHK @t` (R100): the loss check of one source tick. -/
  | srcChk (t : Time)
  /-- `SRC_LD @t, i` (R101): copy one element into the snapshot. -/
  | srcLd (t : Time) (i : Index)
  /-- `SRC_SEND @t` (R102): transmit the snapshot if the source is live. -/
  | srcSend (t : Time)
  /-- `RX_HDR @t, len` (R110): a payload of `len` bytes has arrived. -/
  | rxHdr (t : Time) (len : BitVec 16)
  /-- `RX_ST @t, i, raw` (R111): store one received value, clamped. -/
  | rxSt (t : Time) (i : Index) (raw : Channel)
  /-- `SNK_TICK @t` (R112): one tick of the sink supervisor. -/
  | snkTick (t : Time)
  /-- `ENC_FIRE @t` (R120): the one-shot timer expires. -/
  | encFire (t : Time)
  /-- `RESET @t` (R135): put the node into its initial state. -/
  | reset (t : Time)
  deriving DecidableEq, Repr

/-- The nine opcodes of R73, without operands. -/
inductive Opcode where
  | decEdge | srcChk | srcLd | srcSend | rxHdr | rxSt | snkTick | encFire | reset
  deriving DecidableEq, Repr

/-- The four formats of R71, by which fields carry information. -/
inductive Format where
  | t | i | l | s
  deriving DecidableEq, Repr

/-- The pseudo-operations of R79 and R80. `len` is the length the transport reports, any number of bytes (R72). -/
inductive Pseudo where
  | srcTick (t : Time)
  | rxPayload (t : Time) (len : Nat) (bytes : List Byte)
  deriving DecidableEq, Repr

/-- Which row of the opcode table an operation belongs to. -/
def Instr.opcode : Instr → Opcode
  | .decEdge _ => .decEdge
  | .srcChk _ => .srcChk
  | .srcLd _ _ => .srcLd
  | .srcSend _ => .srcSend
  | .rxHdr _ _ => .rxHdr
  | .rxSt _ _ _ => .rxSt
  | .snkTick _ => .snkTick
  | .encFire _ => .encFire
  | .reset _ => .reset

/-- The time operand every operation carries (R34, R70). -/
def Instr.time : Instr → Time
  | .decEdge t => t
  | .srcChk t => t
  | .srcLd t _ => t
  | .srcSend t => t
  | .rxHdr t _ => t
  | .rxSt t _ _ => t
  | .snkTick t => t
  | .encFire t => t
  | .reset t => t

/-- Why a word is not an operation of an instance: the reasons of R74, and `shortInput` for a byte string that
holds no whole word (R75, R83). -/
inductive WordReason where
  /-- R74(a): the opcode is not one of the nine. -/
  | badOpcode
  /-- R74(b): a field the format requires to be zero is not. -/
  | badReservedField
  /-- R74(c): an index operand is `N_CH` or more. -/
  | badIndex
  /-- R74(d): the operation belongs to the other role. -/
  | wrongRole
  /-- Fewer than the eight bytes of a word are left in a serialised trace. DESIGN CHOICE, safe (log 22). -/
  | shortInput
  deriving DecidableEq, Repr

end Sys2Proof
end

