-- ==== Sys2Proof/WellFormed.lean ====
section
/-! DEFINITION. Well-formed operations (spec/20_memory.md R51, spec/30_encoding.md R72, R74(c)): an index operand
is below `N_CH`. Every other operand takes every value of its field. -/

namespace Sys2Proof

/-- The index operand of the two operations that carry one (formats I and S, R71). -/
def Instr.index? : Instr → Option Index
  | .srcLd _ i => some i
  | .rxSt _ i _ => some i
  | .decEdge _ => none
  | .srcChk _ => none
  | .srcSend _ => none
  | .rxHdr _ _ => none
  | .snkTick _ => none
  | .encFire _ => none
  | .reset _ => none

/-- The check of R74(c) as a Boolean: an index operand, where there is one, is below `nCh`. -/
def Instr.wellFormed (nCh : Nat) (i : Instr) : Bool :=
  match i.index? with
  | some k => decide (k.toNat < nCh)
  | none => true

/-- An operation is well formed for `nCh` channels. -/
abbrev Instr.WellFormed (nCh : Nat) (i : Instr) : Prop := i.wellFormed nCh = true

end Sys2Proof
end

