-- ==== Sys2Proof/Decode.lean ====
section
/-! DEFINITION. Event words (spec/30_encoding.md R70 to R75, R83): the decoder, total on every word and every
byte string and refusing by the reasons of R74, and after it the encoder, written from the same table. -/

namespace Sys2Proof

/-! ### The table of R73 -/

/-- The opcode number of each operation, column `op` of R73. -/
def Opcode.code : Opcode → BitVec 8
  | .decEdge => 0x10
  | .srcChk => 0x11
  | .srcLd => 0x12
  | .srcSend => 0x13
  | .rxHdr => 0x20
  | .rxSt => 0x21
  | .snkTick => 0x22
  | .encFire => 0x23
  | .reset => 0xF0

/-- Column `format` of R73. -/
def Opcode.format : Opcode → Format
  | .decEdge => .t
  | .srcChk => .t
  | .srcLd => .i
  | .srcSend => .t
  | .rxHdr => .l
  | .rxSt => .s
  | .snkTick => .t
  | .encFire => .t
  | .reset => .t

/-- Column `role` of R73; `none` is "both". -/
def Opcode.role? : Opcode → Option Role
  | .decEdge => some .tx
  | .srcChk => some .tx
  | .srcLd => some .tx
  | .srcSend => some .tx
  | .rxHdr => some .rx
  | .rxSt => some .rx
  | .snkTick => some .rx
  | .encFire => some .rx
  | .reset => none

/-- Column `mask` of R73. -/
def Opcode.mask : Opcode → EventWord
  | .decEdge => 0xFFFFFFFF00000000
  | .srcChk => 0xFFFFFFFF00000000
  | .srcLd => 0xFF00FFFF00000000
  | .srcSend => 0xFFFFFFFF00000000
  | .rxHdr => 0xFFFF000000000000
  | .rxSt => 0xFF00000000000000
  | .snkTick => 0xFFFFFFFF00000000
  | .encFire => 0xFFFFFFFF00000000
  | .reset => 0xFFFFFFFF00000000

/-- Column `match` of R73. -/
def Opcode.pattern : Opcode → EventWord
  | .decEdge => 0x1000000000000000
  | .srcChk => 0x1100000000000000
  | .srcLd => 0x1200000000000000
  | .srcSend => 0x1300000000000000
  | .rxHdr => 0x2000000000000000
  | .rxSt => 0x2100000000000000
  | .snkTick => 0x2200000000000000
  | .encFire => 0x2300000000000000
  | .reset => 0xF000000000000000

/-- Column `mnemonic` of R73. -/
def Opcode.mnemonic : Opcode → String
  | .decEdge => "DEC_EDGE"
  | .srcChk => "SRC_CHK"
  | .srcLd => "SRC_LD"
  | .srcSend => "SRC_SEND"
  | .rxHdr => "RX_HDR"
  | .rxSt => "RX_ST"
  | .snkTick => "SNK_TICK"
  | .encFire => "ENC_FIRE"
  | .reset => "RESET"

/-- All rows of R73. -/
def Opcode.all : List Opcode :=
  [.decEdge, .srcChk, .srcLd, .srcSend, .rxHdr, .rxSt, .snkTick, .encFire, .reset]

/-- The row whose opcode number is `c`, if there is one. -/
def Opcode.ofCode? (c : BitVec 8) : Option Opcode :=
  Opcode.all.find? (fun o => o.code == c)

/-! ### The fields of R70 -/

/-- Field `op`, bits 63:56. -/
def opField (w : EventWord) : BitVec 8 := w.extractLsb' 56 8
/-- Field `a`, bits 55:48. -/
def aField (w : EventWord) : BitVec 8 := w.extractLsb' 48 8
/-- Field `v`, bits 47:32. -/
def vField (w : EventWord) : BitVec 16 := w.extractLsb' 32 16
/-- Field `t`, bits 31:0. -/
def tField (w : EventWord) : Time := w.extractLsb' 0 32

/-- `a` may be non-zero only in formats I and S, `v` only in formats L and S (R71). -/
def Format.reservedOk (f : Format) (a : BitVec 8) (v : BitVec 16) : Bool :=
  match f with
  | .t => a == 0 && v == 0
  | .i => v == 0
  | .l => a == 0
  | .s => true

/-- Operand assembly (R72): no operand is split, scaled, shifted or sign-extended. -/
def Opcode.build (o : Opcode) (a : BitVec 8) (v : BitVec 16) (t : Time) : Instr :=
  match o with
  | .decEdge => .decEdge t
  | .srcChk => .srcChk t
  | .srcLd => .srcLd t a
  | .srcSend => .srcSend t
  | .rxHdr => .rxHdr t v
  | .rxSt => .rxSt t a v
  | .snkTick => .snkTick t
  | .encFire => .encFire t
  | .reset => .reset t

/-- The role an operation needs, `none` for both (R73). -/
def Instr.role? (i : Instr) : Option Role := i.opcode.role?

/-! ### The decoder -/

/-- Decode one event word for `nCh` channels, apart from the role: R74(a), (b), (c) in that order
(the order in which the reasons are tried is a DESIGN CHOICE, log 13; safe). -/
def decodeWord (nCh : Nat) (w : EventWord) : Except WordReason Instr :=
  match Opcode.ofCode? (opField w) with
  | none => .error .badOpcode
  | some o =>
    if o.format.reservedOk (aField w) (vField w) then
      let i := o.build (aField w) (vField w) (tField w)
      if i.wellFormed nCh then .ok i else .error .badIndex
    else .error .badReservedField

/-- An instance of role `r` accepts operation `i` (R74(d)). -/
def Instr.roleOk (r : Role) (i : Instr) : Bool :=
  match i.role? with
  | none => true
  | some q => q == r

/-- The decoder of an instance of role `r` with `nCh` channels: all of R74. -/
def decodeFor (nCh : Nat) (r : Role) (w : EventWord) : Except WordReason Instr :=
  match decodeWord nCh w with
  | .error e => .error e
  | .ok i => if i.roleOk r then .ok i else .error .wrongRole

/-! ### Serialisation of words to bytes (R83) -/

/-- The `k` bytes of `x`, least significant byte first. -/
def leBytes : Nat → Nat → List Byte
  | 0, _ => []
  | k + 1, x => BitVec.ofNat 8 x :: leBytes k (x / 256)

/-- The number whose bytes, least significant first, are `bs`. -/
def ofLeBytes : List Byte → Nat
  | [] => 0
  | b :: bs => b.toNat + 256 * ofLeBytes bs

/-- One event word as 8 bytes, least significant byte first (R83). -/
def wordBytes (w : EventWord) : List Byte := leBytes 8 w.toNat

/-- A trace as bytes: the words in order, nothing between them (R83). -/
def serialise (ws : List EventWord) : List Byte := ws.flatMap wordBytes

/-- The first word of a byte string and the bytes after it; `none` where fewer than eight bytes stand. -/
def takeWord : List Byte → Option (EventWord × List Byte)
  | b0 :: b1 :: b2 :: b3 :: b4 :: b5 :: b6 :: b7 :: rest =>
    some (BitVec.ofNat 64 (ofLeBytes [b0, b1, b2, b3, b4, b5, b6, b7]), rest)
  | _ => none

/-- The words of a byte string, for at most `fuel` words; `none` where bytes are left that make no word. -/
def deserialiseFuel : Nat → List Byte → Option (List EventWord)
  | _, [] => some []
  | 0, _ :: _ => none
  | fuel + 1, bs =>
    match takeWord bs with
    | none => none
    | some (w, rest) => (deserialiseFuel fuel rest).map (w :: ·)

/-- The trace a byte string holds (R83). -/
def deserialise (bs : List Byte) : Option (List EventWord) := deserialiseFuel bs.length bs

/-- Decode the operation at the head of a byte string, with the bytes after it (R75: 64 bits per primitive). -/
def decodeBytes (nCh : Nat) (bs : List Byte) : Except WordReason (Instr × List Byte) :=
  match takeWord bs with
  | none => .error .shortInput
  | some (w, rest) =>
    match decodeWord nCh w with
    | .error e => .error e
    | .ok i => .ok (i, rest)

/-- The instruction the decoder reads from the instruction whose bits are `w`, `nbits` of them, every higher bit 0,
laid out as the eight bytes of R83 and decoded for the `N_CH` of R8. The role is not a property of the word, so
both roles' operations are answered (log 27). -/
def decodeTableWord (nbits w : Nat) : Option Instr :=
  match decodeBytes Params.standard.nCh (leBytes 8 (w % 2 ^ nbits)) with
  | .error _ => none
  | .ok (i, _) => some i

/-! ### The encoder -/

/-- The `a` field an operation is written with; 0 where its format has none (R71). -/
def Instr.aOperand : Instr → BitVec 8
  | .decEdge _ => 0
  | .srcChk _ => 0
  | .srcLd _ i => i
  | .srcSend _ => 0
  | .rxHdr _ _ => 0
  | .rxSt _ i _ => i
  | .snkTick _ => 0
  | .encFire _ => 0
  | .reset _ => 0

/-- The `v` field an operation is written with; 0 where its format has none (R71). -/
def Instr.vOperand : Instr → BitVec 16
  | .decEdge _ => 0
  | .srcChk _ => 0
  | .srcLd _ _ => 0
  | .srcSend _ => 0
  | .rxHdr _ len => len
  | .rxSt _ _ raw => raw
  | .snkTick _ => 0
  | .encFire _ => 0
  | .reset _ => 0

/-- Put the four fields of R70 together. -/
def assembleWord (op a : BitVec 8) (v : BitVec 16) (t : Time) : EventWord := op ++ a ++ v ++ t

/-- The event word of an operation (R70, R73). -/
def encode (i : Instr) : EventWord := assembleWord i.opcode.code i.aOperand i.vOperand i.time

end Sys2Proof
end

