-- ==== Sys2Proof/Machine/Node.lean ====
section
/-! DEFINITION. The registers of a node (spec/10_state.md R20 to R33) and the records of the output log
(spec/00_scope.md R13). -/

namespace Sys2Proof.Machine

/-- LinkState, one of {ACTIVE, LOST} (R25, R27). Its one-bit encoding is in Machine/Registers.lean (R82). -/
inductive LinkState where
  | active
  | lost
  deriving DecidableEq, Repr

/-- `enc_state`: the segment of `ppm_out` now in progress (R28, R120). In `pulseLowSync` the output is high
(spec/90_conflicts.md C2). -/
inductive EncState where
  | pulseHigh
  | pulseLowChannel
  | pulseLowSync
  | frameGap
  deriving DecidableEq, Repr

/-- The state of a TX node (R20). -/
structure TxNode where
  /-- `ch`, the ChannelFrame (R21). -/
  ch : List Channel
  /-- `tx_buf`, the snapshot (R22). -/
  txBuf : List Channel
  /-- `dec_idx` (R23). -/
  decIdx : Index
  /-- `last_edge_time` (R24). -/
  lastEdgeTime : Time
  /-- `src_link` (R25). -/
  srcLink : LinkState
  deriving DecidableEq, Repr

/-- The state of an RX node (R20). -/
structure RxNode where
  /-- `ch`, the ChannelFrame (R21). -/
  ch : List Channel
  /-- `last_rx_time` (R26). -/
  lastRxTime : Time
  /-- `snk_link` (R27). -/
  snkLink : LinkState
  /-- `enc_state` (R28). -/
  encState : EncState
  /-- `enc_idx` (R29). -/
  encIdx : Index
  /-- `enc_sum` (R30). -/
  encSum : BitVec 32
  /-- `ppm_out`, `true` is 1 = high (R31). -/
  ppmOut : Bool
  /-- `tmr_deadline`, the armed one-shot timer (R32). -/
  tmrDeadline : Time
  deriving DecidableEq, Repr

/-- One instance: a TX node or an RX node, never both (R2). The constructor is the parameter `ROLE`. -/
inductive Node where
  | tx (n : TxNode)
  | rx (n : RxNode)
  deriving DecidableEq, Repr

/-- `ROLE` of an instance (R2, R8). -/
def Node.role : Node → Role
  | .tx _ => .tx
  | .rx _ => .rx

/-- One record of the output log, with the time operand of the operation that caused it (R13). -/
inductive Output where
  /-- `PPM(t, level)`: `ppm_out` was written. -/
  | ppm (t : Time) (level : Bool)
  /-- `SEND(t, PEER_ADDR, bytes)`: the source supervisor transmitted. -/
  | send (t : Time) (peer : Nat) (bytes : List Byte)
  /-- `STATUS(t, level)`: `status_out` changed value. -/
  | status (t : Time) (level : Bool)
  deriving DecidableEq, Repr

end Sys2Proof.Machine
end

