-- ==== Sys2Proof/Machine/Operands.lean ====
section
/-! DEFINITION. The arithmetic primitives of spec/00_scope.md R12, the element access of spec/20_memory.md R51,
R56, and the payload layout of R53. -/

namespace Sys2Proof.Machine

/-! ### Arithmetic (R12) -/

/-- A parameter in microseconds as a 32-bit quantity. Exact for every parameter R9 admits. -/
def micros (n : Nat) : Time := BitVec.ofNat 32 n

/-- `elapsed(t, t0)`: the 32-bit modular difference of two clock samples. -/
def elapsed (t t0 : Time) : Time := t - t0

/-- `elapsed >u threshold`: strict and unsigned. -/
def exceeds (e : Time) (threshold : Nat) : Bool := decide (threshold < e.toNat)

/-- `satsub(a, b)`: subtraction that saturates at zero. -/
def satsub (a b : Time) : Time := if b.toNat ≤ a.toNat then a - b else 0

/-- `add32(a, b)`: the sum modulo 2^32. -/
def add32 (a b : Time) : Time := a + b

/-- `clamp(v)`: `v` limited to [`CH_MIN`, `CH_MAX`], unsigned, so 0x8000 .. 0xFFFF are large (D3). -/
def clamp (p : Params) (v : Channel) : Channel :=
  if v.toNat < p.chMin then BitVec.ofNat 16 p.chMin
  else if p.chMax < v.toNat then BitVec.ofNat 16 p.chMax
  else v

/-- `le16(v)`: the two bytes of a value, low byte first. -/
def le16 (v : Channel) : List Byte := [v.extractLsb' 0 8, v.extractLsb' 8 8]

/-- `from_le16(b0, b1) = {b1, b0}`. -/
def fromLe16 (b0 b1 : Byte) : Channel := b1 ++ b0

/-- `zext_32` of a channel value (R10). -/
def zext32 (v : Channel) : Time := v.setWidth 32

/-! ### Elements of `ch` and `tx_buf` (R51, R56): one whole element, by index -/

/-- Read element `i`; `none` is an index outside the array, which no operation of a reachable state forms. -/
def readElem (xs : List Channel) (i : Index) : Option Channel := xs[i.toNat]?

/-- Write element `i`, every other element unchanged (R57). -/
def writeElem (xs : List Channel) (i : Index) (v : Channel) : List Channel := xs.set i.toNat v

/-! ### The payload (R53) -/

/-- The payload that carries the values `vs`: channel `k` at bytes `2k` (low) and `2k + 1` (high), ascending. -/
def payloadBytes (vs : List Channel) : List Byte := vs.flatMap le16

/-- Byte `j` of the delivery numbered `fresh` that brings `bytes`; a free value where it brings fewer (log 18). -/
def payloadByte (fresh : Nat) (bytes : List Byte) (j : Nat) : Byte :=
  match bytes[j]? with
  | some b => b
  | none => Config.undeliveredByte fresh j

/-- The value a delivery brings for channel `i`: `raw_i = {byte[2i+1], byte[2i]}` (R53, R80). -/
def payloadValue (fresh : Nat) (bytes : List Byte) (i : Nat) : Channel :=
  fromLe16 (payloadByte fresh bytes (2 * i)) (payloadByte fresh bytes (2 * i + 1))

/-- The length a payload of `k` bytes is reported with (R72): more than 65535 is written 65535. -/
def lengthField (k : Nat) : BitVec 16 := BitVec.ofNat 16 (if 65535 < k then 65535 else k)

end Sys2Proof.Machine
end

