-- ==== Sys2Proof/Machine/Invariants.lean ====
section
/-! DEFINITION. The invariants of spec/10_state.md R40, with the shape of the arrays R20 gives. A state that breaks
one is unreachable and has no rule: a model handed such a state refuses it (R133, D30, spec/93_implementation_defined.md U7). -/

namespace Sys2Proof.Machine

/-- Every element is at most `m`. -/
def allAtMost (xs : List Channel) (m : Nat) : Bool := xs.all (fun v => decide (v.toNat ≤ m))

/-- Every element is at least `m`. -/
def allAtLeast (xs : List Channel) (m : Nat) : Bool := xs.all (fun v => decide (m ≤ v.toNat))

/-- The check of a TX node: R40(e), and the array lengths of R20. -/
def txInv (p : Params) (n : TxNode) : Bool :=
  decide (n.ch.length = p.nCh ∧ n.txBuf.length = p.nCh ∧ n.decIdx.toNat ≤ p.nCh ∧
    allAtMost n.ch (max p.chReset p.syncThreshold) = true)

/-- A TX node is within R40. -/
abbrev TxInv (p : Params) (n : TxNode) : Prop := txInv p n = true

/-- R40(b): which index goes with which phase. -/
abbrev PhaseInv (p : Params) (n : RxNode) : Prop :=
  n.encIdx.toNat ≤ p.nCh ∧
  (n.encState = .pulseHigh → n.encIdx.toNat < p.nCh) ∧
  (n.encState = .pulseLowChannel → 1 ≤ n.encIdx.toNat) ∧
  (n.encState = .pulseLowSync → n.encIdx.toNat = p.nCh) ∧
  (n.encState = .frameGap → n.encIdx = 0 ∧ n.encSum = 0)

/-- R40(c): the output is high exactly in `PULSE_HIGH` and `PULSE_LOW_SYNC`. -/
abbrev LevelInv (n : RxNode) : Prop :=
  n.ppmOut = true ↔ (n.encState = .pulseHigh ∨ n.encState = .pulseLowSync)

/-- The check of an RX node: R40(a) to (d), and the array length of R20. -/
def rxInv (p : Params) (n : RxNode) : Bool :=
  decide (n.ch.length = p.nCh ∧ allAtLeast n.ch p.chMin = true ∧ allAtMost n.ch p.chMax = true ∧
    PhaseInv p n ∧ LevelInv n ∧ n.encSum.toNat ≤ n.encIdx.toNat * p.chMax)

/-- An RX node is within R40. -/
abbrev RxInv (p : Params) (n : RxNode) : Prop := rxInv p n = true

/-- R40 for an instance of either role. -/
def NodeInv (p : Params) : Node → Prop
  | .tx n => TxInv p n
  | .rx n => RxInv p n

end Sys2Proof.Machine
end

