-- ==== Sys2Proof/Machine/Flags.lean ====
section
/-! DEFINITION. The two link flags and what follows them (spec/10_state.md R25, R27, R33, R37; spec/00_scope.md
R13). The block has no other flag. -/

namespace Sys2Proof.Machine

/-- `src_link` after `SRC_CHK` (R100): set to LOST when the time since the last edge exceeds
`SRC_LOSS_THRESHOLD`, else left as it is; never set to ACTIVE. -/
def srcLinkChecked (p : Params) (t lastEdge : Time) (old : LinkState) : LinkState :=
  if exceeds (elapsed t lastEdge) p.srcLossThreshold then .lost else old

/-- `snk_link` after `SNK_TICK` (R112): recomputed from scratch. -/
def snkLinkTicked (p : Params) (t lastRx : Time) : LinkState :=
  if exceeds (elapsed t lastRx) p.snkLossThreshold then .lost else .active

/-- The level of `status_out` for a link: asserted exactly when it is LOST (R33, R156). -/
def LinkState.status (l : LinkState) : Bool := decide (l = .lost)

/-- The `STATUS` record of an operation that takes the link from `old` to `new`: one when it changes, none
otherwise (R13, R33). -/
def statusRecord (t : Time) (old new : LinkState) : List Output :=
  if old = new then [] else [.status t new.status]

/-- The link register of a node. -/
def Node.link : Node → LinkState
  | .tx n => n.srcLink
  | .rx n => n.snkLink

/-- `status_out` (R33): not a register, a function of the link register at every instant. -/
def Node.statusOut (n : Node) : Bool := n.link.status

end Sys2Proof.Machine
end

