-- ==== Sys2Proof/Machine/Reset.lean ====
section
/-! DEFINITION. The reset values of spec/10_state.md R39, which spec/44_system.md R135 writes. -/

namespace Sys2Proof.Machine

/-- A TX node after `RESET @t` (R39). -/
def txReset (p : Params) (t : Time) : TxNode where
  ch := List.replicate p.nCh (BitVec.ofNat 16 p.chReset)
  txBuf := List.replicate p.nCh (BitVec.ofNat 16 p.chReset)
  decIdx := BitVec.ofNat 8 p.nCh
  lastEdgeTime := t
  srcLink := .lost

/-- An RX node after `RESET @t` (R39). -/
def rxReset (p : Params) (t : Time) : RxNode where
  ch := List.replicate p.nCh (BitVec.ofNat 16 p.chReset)
  lastRxTime := t
  snkLink := .lost
  encState := .frameGap
  encIdx := 0
  encSum := 0
  ppmOut := false
  tmrDeadline := add32 t (micros p.encStartDelay)

/-- An instance of role `r` after `RESET @t`. -/
def nodeReset (p : Params) (r : Role) (t : Time) : Node :=
  match r with
  | .tx => .tx (txReset p t)
  | .rx => .rx (rxReset p t)

/-- The records `RESET @t` logs (R135): `PPM(t, 0)` on an RX node, and `STATUS(t, 1)` on both, whatever the link
was before (DEDUCED, log 16). -/
def resetRecords (r : Role) (t : Time) : List Output :=
  match r with
  | .tx => [.status t true]
  | .rx => [.ppm t false, .status t true]

end Sys2Proof.Machine
end

