-- ==== Sys2Proof/Machine/State.lean ====
section
/-! DEFINITION. The machine state: one node's registers (spec/10_state.md R20), and beside them the model's own
fields: the configuration record, the trace still to come, the trace monitor and the output log. Plain data.
The kinds of stop are here too: no fault (spec/60_exceptions.md R140), and the refusals the spec asks a model for. -/

namespace Sys2Proof.Machine

/-- There is no fault: no operation raises anything and a model gives the block no fault outcome (R140, R16).
DEDUCED, log 14; safe, since every condition R141 lists is an ordinary effect of its operation. -/
inductive Fault where
  deriving DecidableEq, Repr

/-- The verdicts of the model on a trace, a configuration or a state; none is an event of the hardware (R140). -/
inductive Refusal where
  /-- An arm of `exec` that has no meaning yet. No arm answers it. Safe. -/
  | notModelled (mnemonic : String)
  /-- R74, R81(e) `legal-word`: raised by `step` for a word that is no operation of this instance, and by `exec` for
  an operation of the other role or with an index of `N_CH` or more. Names the word and the reason. Safe. -/
  | illegalWord (w : EventWord) (why : WordReason)
  /-- R81(a) `first-is-reset`: raised by `step`. Safe. -/
  | firstIsReset
  /-- R81(b) `time-order`: raised by `step` when an operation's time is before the last one's. Safe. -/
  | timeOrder
  /-- R81(c) `timer-exact`: raised by `step` for an operation after a deadline whose ENC_FIRE is still due, and by
  `exec` for an ENC_FIRE that is not at the deadline (R120). Safe. -/
  | timerExact
  /-- R81(d), R80 `rx-st-in-payload`: raised by `step`. Safe. -/
  | rxStInPayload
  /-- R9: the parameters break a constraint; raised by `step` and by every operation (log 11). Safe. -/
  | badConfiguration
  /-- R133, U7: a state outside the invariants of R40, for which the spec gives no rule; raised by every operation
  but RESET (log 12). Safe: no reachable state is one. -/
  | unreachableState
  deriving DecidableEq, Repr

/-- What the model remembers of the trace so that it can refuse an ill-formed one (R81, log 8). Not state of the
hardware. -/
structure Monitor where
  /-- The first RESET has happened (R81(a)); before it the whole state is unspecified (R39, U8). -/
  started : Bool
  /-- The time operand of the last operation (R81(b)). -/
  now : Time
  /-- Inside the expansion of an accepted payload, the index the next `RX_ST` must have (R80). -/
  window : Option Index
  deriving DecidableEq, Repr

/-- One instance of WPPM-CORE and the trace it undergoes. -/
structure State where
  /-- The configuration record (R8). Static: no operation writes it (R137). -/
  params : Params
  /-- The registers of the node; the constructor is `ROLE` (R2, R20). -/
  node : Node
  /-- The trace monitor (R81). -/
  monitor : Monitor
  /-- The event words still to come, first one first (R70, R81). -/
  pending : List EventWord
  /-- The output log, in the order it happened (R13). -/
  log : List Output
  deriving DecidableEq, Repr

/-- The node's registers become `n` and the records `out` are logged. -/
def State.putNode (s : State) (n : Node) (out : List Output) : State :=
  { s with node := n, log := s.log ++ out }

/-- The next event word is consumed: the trace left is `rest` and the monitor is `m`. -/
def State.accept (s : State) (rest : List EventWord) (m : Monitor) : State :=
  { s with pending := rest, monitor := m }

/-- The role of the instance. -/
def State.role (s : State) : Role := s.node.role

/-- An instance of role `r` with parameters `p` right after `RESET @t` as its first operation (R39, R81(a), R135),
with nothing of its trace left; the log holds that RESET's records. -/
def State.afterReset (p : Params) (r : Role) (t : Time) : State where
  params := p
  node := nodeReset p r t
  monitor := { started := true, now := t, window := none }
  pending := []
  log := resetRecords r t

/-- An instance before its first RESET: its registers are unspecified (R39, U8), so `n` is any node; its trace is `ws`.
Only RESET is accepted next (R81(a)); the monitor's time is not looked at before it (log 26). -/
def State.beforeReset (p : Params) (n : Node) (ws : List EventWord) : State where
  params := p
  node := n
  monitor := { started := false, now := 0, window := none }
  pending := ws
  log := []

/-- The machine right after reset: the registers of R39 for the parameters of R8. DESIGN CHOICE: the role is TX
(log 2), the reset time is 0 (log 3), the peer address is 0 (log 5). Unsafe: a claim about this one state holds for
that role, time and address only. -/
def State.reset : State := State.afterReset Params.standard .tx 0

end Sys2Proof.Machine
end

