-- ==== Sys2Proof/Machine/Ops.lean ====
section
/-! DEFINITION. Taking an event, the one shared operation every meaning goes through. Taking an event means running
its operation's rule atomically: nothing is saved, no mode changes, no vector is fetched, and there is no return
operation (spec/60_exceptions.md R146, R147). What is checked first is what the spec gives no rule for: an illegal
configuration (R9), an index out of range and the other role's operation (R74), a state outside the invariants (R133), in
that order (DESIGN CHOICE, logs 11, 12 and 13). -/

namespace Sys2Proof.Machine

/-- The answer of an operation. -/
abbrev Answer := Host.Outcome State Fault Refusal

/-- What an operation's rule answers on a node of type `ν`: the new registers and the records it logs, or a refusal. -/
abbrev RuleAnswer (ν : Type) := Except Refusal (ν × List Output)

/-- Put a rule's answer back into the state, `wrap` being the node's role. -/
def finish {ν : Type} (wrap : ν → Node) (s : State) (a : RuleAnswer ν) : Answer :=
  match a with
  | .error r => .refused r
  | .ok r => .next (s.putNode (wrap r.1) r.2)

/-- Take operation `i` of the TX node by its rule. -/
def takeTx (i : Instr) (s : State) (rule : Params → TxNode → RuleAnswer TxNode) : Answer :=
  if ¬ Legal s.params then .refused .badConfiguration
  else if ¬ i.WellFormed s.params.nCh then .refused (.illegalWord (encode i) .badIndex)
  else
    match s.node with
    | .rx _ => .refused (.illegalWord (encode i) .wrongRole)
    | .tx n =>
      if ¬ TxInv s.params n then .refused .unreachableState
      else finish Node.tx s (rule s.params n)

/-- Take operation `i` of the RX node by its rule. -/
def takeRx (i : Instr) (s : State) (rule : Params → RxNode → RuleAnswer RxNode) : Answer :=
  if ¬ Legal s.params then .refused .badConfiguration
  else if ¬ i.WellFormed s.params.nCh then .refused (.illegalWord (encode i) .badIndex)
  else
    match s.node with
    | .tx _ => .refused (.illegalWord (encode i) .wrongRole)
    | .rx n =>
      if ¬ RxInv s.params n then .refused .unreachableState
      else finish Node.rx s (rule s.params n)

end Sys2Proof.Machine
end

