-- ==== Sys2Proof/Machine/Decoder.lean ====
section
/-! DEFINITION. The PPM Decoder (spec/40_decoder.md). -/

namespace Sys2Proof.Machine

/-- The rule of `DEC_EDGE @t` (R90): the interval since the last edge is a sync gap, a channel pulse, or a pulse
beyond the last channel. The stored value is not clamped (R90(c)). -/
def decEdgeRule (t : Time) (p : Params) (n : TxNode) : RuleAnswer TxNode :=
  let interval := elapsed t n.lastEdgeTime
  if exceeds interval p.syncThreshold then
    .ok ({ n with lastEdgeTime := t, decIdx := 0, srcLink := .active }, statusRecord t n.srcLink .active)
  else if n.decIdx.toNat < p.nCh then
    .ok ({ n with lastEdgeTime := t
                  ch := writeElem n.ch n.decIdx (interval.setWidth 16)
                  decIdx := n.decIdx + 1 }, [])
  else
    .ok ({ n with lastEdgeTime := t }, [])

/-- `DEC_EDGE @t` (R90). -/
def execDecEdge (t : Time) (s : State) : Answer := takeTx (.decEdge t) s (decEdgeRule t)

end Sys2Proof.Machine
end

