-- ==== Sys2Proof/Machine/Encoder.lean ====
section
/-! DEFINITION. The PPM Encoder (spec/43_encoder.md), with the corrections of spec/90_conflicts.md C1, C2, C3. -/

namespace Sys2Proof.Machine

/-- What a branch of the encoder decides: the registers it leaves (the timer not yet re-armed) and `d`, the length
of the segment now starting (R120). -/
abbrev Segment := RxNode × Time

/-- Branch `PULSE_HIGH` (R121): the pulse of channel `enc_idx`, whose value is `v`, ends. -/
def endChannelPulse (p : Params) (v : Channel) (n : RxNode) : Segment :=
  ({ n with ppmOut := false
            encSum := n.encSum + zext32 v
            encIdx := n.encIdx + 1
            encState := .pulseLowChannel },
   satsub (zext32 v) (micros p.pulseWidth))

/-- Branch `PULSE_LOW_CHANNEL` with `enc_idx < N_CH` (R122): the next channel's pulse starts. -/
def startNextPulse (p : Params) (n : RxNode) : Segment :=
  ({ n with ppmOut := true, encState := .pulseHigh }, micros p.pulseWidth)

/-- Branch `PULSE_LOW_CHANNEL` with `enc_idx = N_CH` (R123): the marker pulse starts; it is high. -/
def startMarkerPulse (p : Params) (n : RxNode) : Segment :=
  ({ n with ppmOut := true, encState := .pulseLowSync }, micros p.pulseWidth)

/-- Branch `PULSE_LOW_SYNC` (R124): the frame gap starts; its length comes from the old `enc_sum`. -/
def startFrameGap (p : Params) (n : RxNode) : Segment :=
  ({ n with ppmOut := false, encIdx := 0, encSum := 0, encState := .frameGap },
   satsub (micros p.framePeriod) (n.encSum + micros p.pulseWidth))

/-- Branch `FRAME_GAP` (R125): the first pulse of the next frame starts. -/
def startFrame (p : Params) (n : RxNode) : Segment :=
  ({ n with ppmOut := true, encState := .pulseHigh }, micros p.pulseWidth)

/-- The dispatch of R120 on `enc_state` and `enc_idx`; `none` where the spec gives no branch (R133). `ch` is read
once, and only in `PULSE_HIGH` (D18). -/
def encoderBranch (p : Params) (n : RxNode) : Option Segment :=
  match n.encState with
  | .pulseHigh => (readElem n.ch n.encIdx).map (fun v => endChannelPulse p v n)
  | .pulseLowChannel =>
    if n.encIdx.toNat < p.nCh then some (startNextPulse p n)
    else if n.encIdx.toNat = p.nCh then some (startMarkerPulse p n)
    else none
  | .pulseLowSync => some (startFrameGap p n)
  | .frameGap => some (startFrame p n)

/-- The rule of `ENC_FIRE @t` (R120): enabled only at the deadline; the timer is re-armed from the previous deadline
(D19), and the new level is output. -/
def encFireRule (t : Time) (p : Params) (n : RxNode) : RuleAnswer RxNode :=
  if t = n.tmrDeadline then
    match encoderBranch p n with
    | none => .error .unreachableState
    | some (m, d) => .ok ({ m with tmrDeadline := add32 n.tmrDeadline d }, [.ppm t m.ppmOut])
  else .error .timerExact

/-- `ENC_FIRE @t` (R120 to R125). -/
def execEncFire (t : Time) (s : State) : Answer := takeRx (.encFire t) s (encFireRule t)

end Sys2Proof.Machine
end

