-- ==== Sys2Proof/Machine/SinkSupervisor.lean ====
section
/-! DEFINITION. The Link Supervisor, sink side (spec/42_sink_supervisor.md). -/

namespace Sys2Proof.Machine

/-- The rule of `RX_HDR @t, len` (R110): length is the only validity test, and a wrong-length payload changes
nothing at all (spec/90_conflicts.md C4). -/
def rxHdrRule (t : Time) (len : BitVec 16) (p : Params) (n : RxNode) : RuleAnswer RxNode :=
  if len.toNat = p.payloadLen then .ok ({ n with lastRxTime := t }, []) else .ok (n, [])

/-- `RX_HDR @t, len` (R110). -/
def execRxHdr (t : Time) (len : BitVec 16) (s : State) : Answer := takeRx (.rxHdr t len) s (rxHdrRule t len)

/-- The rule of `RX_ST @t, i, raw` (R111): the value is clamped, never rejected. -/
def rxStRule (i : Index) (raw : Channel) (p : Params) (n : RxNode) : RuleAnswer RxNode :=
  .ok ({ n with ch := writeElem n.ch i (clamp p raw) }, [])

/-- `RX_ST @t, i, raw` (R111). That it stands inside an accepted payload is a rule of the trace, checked by the
step (R80, R81(d), log 28; Machine/Trace.lean). -/
def execRxSt (t : Time) (i : Index) (raw : Channel) (s : State) : Answer := takeRx (.rxSt t i raw) s (rxStRule i raw)

/-- The rule of `SNK_TICK @t` (R112). -/
def snkTickRule (t : Time) (p : Params) (n : RxNode) : RuleAnswer RxNode :=
  let link := snkLinkTicked p t n.lastRxTime
  .ok ({ n with snkLink := link }, statusRecord t n.snkLink link)

/-- `SNK_TICK @t` (R112). -/
def execSnkTick (t : Time) (s : State) : Answer := takeRx (.snkTick t) s (snkTickRule t)

end Sys2Proof.Machine
end

