-- ==== Sys2Proof/Machine/SourceSupervisor.lean ====
section
/-! DEFINITION. The Link Supervisor, source side (spec/41_source_supervisor.md). -/

namespace Sys2Proof.Machine

/-- The rule of `SRC_CHK @t` (R100). -/
def srcChkRule (t : Time) (p : Params) (n : TxNode) : RuleAnswer TxNode :=
  let link := srcLinkChecked p t n.lastEdgeTime n.srcLink
  .ok ({ n with srcLink := link }, statusRecord t n.srcLink link)

/-- `SRC_CHK @t` (R100). -/
def execSrcChk (t : Time) (s : State) : Answer := takeTx (.srcChk t) s (srcChkRule t)

/-- The rule of `SRC_LD @t, i` (R101): the copy is made whatever the link is; `t` only places it in time. -/
def srcLdRule (i : Index) (_ : Params) (n : TxNode) : RuleAnswer TxNode :=
  match readElem n.ch i with
  | none => .error .unreachableState
  | some v => .ok ({ n with txBuf := writeElem n.txBuf i v }, [])

/-- `SRC_LD @t, i` (R101). -/
def execSrcLd (t : Time) (i : Index) (s : State) : Answer := takeTx (.srcLd t i) s (srcLdRule i)

/-- The rule of `SRC_SEND @t` (R102): no state change; the snapshot goes out when the source is live. -/
def srcSendRule (t : Time) (p : Params) (n : TxNode) : RuleAnswer TxNode :=
  match n.srcLink with
  | .active => .ok (n, [.send t p.peerAddr (payloadBytes n.txBuf)])
  | .lost => .ok (n, [])

/-- `SRC_SEND @t` (R102). -/
def execSrcSend (t : Time) (s : State) : Answer := takeTx (.srcSend t) s (srcSendRule t)

end Sys2Proof.Machine
end

