-- ==== Sys2Proof/Machine/System.lean ====
section
/-! DEFINITION. The system operation (spec/44_system.md). -/

namespace Sys2Proof.Machine

/-- `RESET @t` (R135): in any state, of either role, every register takes its value of R39. The parameters are not
touched. -/
def execReset (t : Time) (s : State) : Answer :=
  if ¬ Legal s.params then .refused .badConfiguration
  else .next (s.putNode (nodeReset s.params s.role t) (resetRecords s.role t))

end Sys2Proof.Machine
end

