-- ==== Sys2Proof/Machine/Dispatch.lean ====
section
/-! DEFINITION. One arm per operation of spec/30_encoding.md R73. -/

namespace Sys2Proof.Machine

/-- The meaning of one primitive operation. -/
def exec (i : Instr) (s : State) : Host.Outcome State Fault Refusal :=
  match i with
  | .decEdge t => Sys2Proof.Machine.execDecEdge t s
  | .srcChk t => Sys2Proof.Machine.execSrcChk t s
  | .srcLd t k => Sys2Proof.Machine.execSrcLd t k s
  | .srcSend t => Sys2Proof.Machine.execSrcSend t s
  | .rxHdr t len => Sys2Proof.Machine.execRxHdr t len s
  | .rxSt t k raw => Sys2Proof.Machine.execRxSt t k raw s
  | .snkTick t => Sys2Proof.Machine.execSnkTick t s
  | .encFire t => Sys2Proof.Machine.execEncFire t s
  | .reset t => Sys2Proof.Machine.execReset t s

end Sys2Proof.Machine
end

