-- ==== Sys2Proof/Machine/Trace.lean ====
section
/-! DEFINITION. Well-formed traces (spec/30_encoding.md R80, R81; spec/00_scope.md R15): what `step` checks before it
runs an operation, and what it remembers after. -/

namespace Sys2Proof.Machine

/-- `t` is not before `t0` in the order of a trace of words (R81(b)): the time from `t0` to `t` is below 2^31. -/
def notBefore (t t0 : Time) : Bool := decide ((elapsed t t0).toNat < 2 ^ 31)

/-- `t` is after `t0` in the sense of R81(b): not before it and not equal to it. -/
def isAfter (t t0 : Time) : Bool := notBefore t t0 && t != t0

/-- The expiry of the timer was due before `t` (R81(c), R15(b)). A TX node has no timer (R152). RESET is an
operation like any other here (DEDUCED, log 10; safe). -/
def Node.overdue (n : Node) (t : Time) : Bool :=
  match n with
  | .tx _ => false
  | .rx r => isAfter t r.tmrDeadline

/-- The payload window after operation `i`, or `none` where R80 forbids `i` here. An accepted header opens it at
index 0, each store must have the next index, the last store closes it. A header of any length inside an unfinished
expansion is refused, two payloads not interleaving (R60(f), R116), and RESET closes the window (DEDUCED, log 9; safe). -/
def nextWindow (p : Params) (window : Option Index) (i : Instr) : Option (Option Index) :=
  match i with
  | .rxHdr _ len =>
    match window with
    | some _ => none
    | none => if len.toNat = p.payloadLen then some (some 0) else some none
  | .rxSt _ k _ =>
    if window = some k then
      if k.toNat + 1 = p.nCh then some none else some (some (k + 1))
    else none
  | .reset _ => some none
  | .decEdge _ => some window
  | .srcChk _ => some window
  | .srcLd _ _ => some window
  | .srcSend _ => some window
  | .snkTick _ => some window
  | .encFire _ => some window

/-- Operation is `RESET`. -/
def isReset (i : Instr) : Bool := decide (i.opcode = .reset)

/-- R81 for one operation after a well-formed trace: the monitor after it, or the refusal R81 names. The checks are
made in the order (a), (b), (c), (d) (DESIGN CHOICE, log 13; safe). Before the first RESET only (a) is checked. -/
def observe (p : Params) (n : Node) (m : Monitor) (i : Instr) : Except Refusal Monitor :=
  if m.started then
    if notBefore i.time m.now then
      if n.overdue i.time then .error .timerExact
      else
        match nextWindow p m.window i with
        | none => .error .rxStInPayload
        | some w => .ok { started := true, now := i.time, window := w }
    else .error .timeOrder
  else if isReset i then .ok { started := true, now := i.time, window := none }
  else .error .firstIsReset

/-- The next event word, ready to be fetched. -/
def State.enqueue (s : State) (w : EventWord) : State := { s with pending := w :: s.pending }

/-- Set what a trace must have set for operation `i` to be the next one: an instance of its role, the first RESET
past, its time not before the last operation's, its timer expiry due at its time (ENC_FIRE) or not overdue, its
payload window open at its index (RX_ST) or shut (RX_HDR). Whatever `i` does not need is left as it is. -/
def State.prepareFor (s : State) (i : Instr) : State :=
  let node :=
    match i.role? with
    | none => s.node
    | some r => if s.node.role = r then s.node else nodeReset s.params r i.time
  let node :=
    match node with
    | .tx n => .tx n
    | .rx n =>
      match i.opcode with
      | .encFire => .rx { n with tmrDeadline := i.time }
      | _ => if isAfter i.time n.tmrDeadline then .rx { n with tmrDeadline := i.time } else .rx n
  let window :=
    match i.opcode with
    | .rxHdr => none
    | .rxSt => i.index?
    | _ => s.monitor.window
  let now := if notBefore i.time s.monitor.now then s.monitor.now else i.time
  { s with node := node, monitor := { started := true, now := now, window := window } }

end Sys2Proof.Machine
end

