-- ==== Sys2Proof/Machine/Step.lean ====
section
/-! DEFINITION. One step: the next event word of the trace is decoded (spec/30_encoding.md R75), held against the
rules of a well-formed trace (R81) and run. -/

namespace Sys2Proof.Machine

/-- One step. With no event word left nothing happens: the block never halts, and a finite trace says nothing of
what comes after it (spec/00_scope.md R16, D33; DESIGN CHOICE, log 7; safe). -/
def step (s : State) : Host.Outcome State Fault Refusal :=
  if Legal s.params then
    match s.pending with
    | [] => .next s
    | w :: rest =>
      match decodeFor s.params.nCh s.role w with
      | .error why => .refused (.illegalWord w why)
      | .ok i =>
        match observe s.params s.node s.monitor i with
        | .error r => .refused r
        | .ok m => exec i (s.accept rest m)
  else .refused .badConfiguration

/-- `s` with the instruction whose bits are `w`, `nbits` of them and every higher bit 0, as the next event word, and
with what R81 and the role ask for before it (log 6). A word that is no operation changes the queue only. -/
def State.withFetchWord (s : State) (nbits w : Nat) : State :=
  let word := BitVec.ofNat 64 (w % 2 ^ nbits)
  match decodeWord s.params.nCh word with
  | .error _ => s.enqueue word
  | .ok i => (s.prepareFor i).enqueue word

end Sys2Proof.Machine
end

