-- ==== Sys2Proof/Machine/Expand.lean ====
section
/-! DEFINITION. The expansion of the pseudo-operations into primitives (spec/30_encoding.md R79, R80). Operations of
other contexts may stand between any two of the primitives (spec/20_memory.md R60); such a trace writes them out. -/

namespace Sys2Proof.Machine

/-- `SRC_TICK @t` (R79): the check, the loads in ascending order, the send. -/
def expandSrcTick (p : Params) (t : Time) : List Instr :=
  .srcChk t :: (List.range p.nCh).map (fun k => .srcLd t (BitVec.ofNat 8 k)) ++ [.srcSend t]

/-- `RX_PAYLOAD @t, len, bytes` (R80): the header, and the `N_CH` stores in ascending order only if `len` is
`PAYLOAD_LEN`. Only `len` is examined: bytes beyond `PAYLOAD_LEN` are not looked at, and bytes that are missing are free
values of this delivery, which `fresh` numbers (log 18). -/
def expandRxPayload (p : Params) (fresh : Nat) (t : Time) (len : Nat) (bytes : List Byte) : List Instr :=
  .rxHdr t (lengthField len) ::
    if len = p.payloadLen then
      (List.range p.nCh).map (fun k => .rxSt t (BitVec.ofNat 8 k) (payloadValue fresh bytes k))
    else []

/-- The primitives of a pseudo-operation; `fresh` is its number in the trace. -/
def expand (p : Params) (fresh : Nat) (q : Pseudo) : List Instr :=
  match q with
  | .srcTick t => expandSrcTick p t
  | .rxPayload t len bytes => expandRxPayload p fresh t len bytes

end Sys2Proof.Machine
end

