-- ==== Sys2Proof/Machine/Text.lean ====
section
/-! DEFINITION. The textual form of a trace (spec/30_encoding.md R76, with the pseudo-operations of R79 and R80): a
printer of operations, a reader of lines, and the loading of a whole text. What R76 leaves open of the lexical form
is a DESIGN CHOICE (logs 24, 30 and 31; safe: no rule of the block depends on it). -/

namespace Sys2Proof.Machine

/-! ### Numbers: decimal, or hexadecimal with 0x -/

/-- The value of a digit character in `base` (10 or 16). -/
def digitValue? (base : Nat) (c : Char) : Option Nat :=
  let n := c.toNat
  let v := if 48 ≤ n ∧ n ≤ 57 then n - 48
    else if 65 ≤ n ∧ n ≤ 70 then n - 55
    else if 97 ≤ n ∧ n ≤ 102 then n - 87
    else base
  if v < base then some v else none

/-- Read digits onto `acc`; `none` where a character is no digit. -/
def readDigits (base : Nat) : Nat → List Char → Option Nat
  | acc, [] => some acc
  | acc, c :: cs =>
    match digitValue? base c with
    | none => none
    | some v => readDigits base (acc * base + v) cs

/-- A number in `base`, at least one digit. -/
def readBase (base : Nat) (cs : List Char) : Option Nat :=
  match cs with
  | [] => none
  | _ :: _ => readDigits base 0 cs

/-- A number of R76. -/
def readNumber (cs : List Char) : Option Nat :=
  match cs with
  | '0' :: 'x' :: rest => readBase 16 rest
  | _ => readBase 10 cs

/-- The decimal digit character of `d`. -/
def digitChar (d : Nat) : Char := Char.ofNat (48 + d)

/-- The decimal form of `n`, `fuel` digits at most. -/
def decimalFuel : Nat → Nat → List Char
  | 0, _ => []
  | fuel + 1, n => if n < 10 then [digitChar n] else decimalFuel fuel (n / 10) ++ [digitChar (n % 10)]

/-- The decimal form of an operand (every operand is below 10^10). -/
def decimal (n : Nat) : List Char := decimalFuel 10 n

/-! ### Printing operations -/

/-- `@t`. -/
def timeText (t : Time) : List Char := '@' :: decimal t.toNat

/-- A further operand, after a comma. -/
def operandText (n : Nat) : List Char := ',' :: ' ' :: decimal n

/-- The operands after the time (R76). -/
def moreText : Instr → List Char
  | .srcLd _ i => operandText i.toNat
  | .rxHdr _ len => operandText len.toNat
  | .rxSt _ i raw => operandText i.toNat ++ operandText raw.toNat
  | .decEdge _ => []
  | .srcChk _ => []
  | .srcSend _ => []
  | .snkTick _ => []
  | .encFire _ => []
  | .reset _ => []

/-- The mnemonic as characters. -/
def mnemonicText (o : Opcode) : List Char := o.mnemonic.toList

/-- One operation as a line of R76. -/
def instrText (i : Instr) : List Char :=
  mnemonicText i.opcode ++ ' ' :: timeText i.time ++ moreText i

/-! ### Reading lines -/

/-- Blank characters. -/
def isBlank (c : Char) : Bool := c == ' ' || c == '\t' || c == '\r'

/-- Characters that are a token of their own. -/
def isMark (c : Char) : Bool := c == '@' || c == ',' || c == '=' || c == '[' || c == ']'

/-- End the word `acc` (held backwards). -/
def flushWord (acc : List Char) (rest : List (List Char)) : List (List Char) :=
  match acc with
  | [] => rest
  | _ :: _ => acc.reverse :: rest

/-- Cut a line into tokens; a `;` starts a comment. -/
def tokensFrom : List Char → List Char → List (List Char)
  | acc, [] => flushWord acc []
  | acc, c :: cs =>
    if c == ';' then flushWord acc []
    else if isBlank c then flushWord acc (tokensFrom [] cs)
    else if isMark c then flushWord acc ([c] :: tokensFrom [] cs)
    else tokensFrom (c :: acc) cs

/-- The tokens of a line. -/
def tokens (line : List Char) : List (List Char) := tokensFrom [] line

/-- A line of a trace text. -/
inductive SourceLine where
  | blank
  | role (r : Role)
  | param (name : List Char) (value : Nat)
  | op (i : Instr)
  | pseudo (q : Pseudo)
  deriving DecidableEq, Repr

/-- A number that fits `k` bits; `none` for a wider one, so that a text whose `t`, `i` or `raw` is too wide for its field of
R70 cannot be read. DESIGN CHOICE, log 31: R76 does not say what a reader does with it, and R72 settles `len` alone. -/
def readBits (k : Nat) (cs : List Char) : Option (BitVec k) :=
  match readNumber cs with
  | none => none
  | some n => if n < 2 ^ k then some (BitVec.ofNat k n) else none

/-- The opcode a mnemonic names. -/
def readOpcode (cs : List Char) : Option Opcode := Opcode.all.find? (fun o => mnemonicText o == cs)

/-- Bytes written as two hexadecimal digits each, up to the closing bracket. -/
def readBytes : List (List Char) → Option (List Byte)
  | [[']']] => some []
  | (h :: l :: []) :: rest =>
    match readBase 16 [h, l], readBytes rest with
    | some n, some bs => some (BitVec.ofNat 8 n :: bs)
    | _, _ => none
  | _ => none

/-- The operation with opcode `o`, time `t` and the operand tokens `args` of its format. -/
def readOperands (o : Opcode) (t : Time) (args : List (List Char)) : Option Instr :=
  match o.format, args with
  | .t, [] => some (o.build 0 0 t)
  | .i, [[','], i] => (readBits 8 i).map (fun i => o.build i 0 t)
  | .l, [[','], len] => (readNumber len).map (fun len => o.build 0 (lengthField len) t)
  | .s, [[','], i, [','], raw] =>
    match readBits 8 i, readBits 16 raw with
    | some i, some raw => some (o.build i raw t)
    | _, _ => none
  | _, _ => none

/-- Read a pseudo-operation by name (R79, R80). -/
def readPseudo (name : List Char) (t : Time) (args : List (List Char)) : Option Pseudo :=
  if name == "SRC_TICK".toList then
    match args with
    | [] => some (.srcTick t)
    | _ :: _ => none
  else if name == "RX_PAYLOAD".toList then
    match args with
    | [','] :: len :: [','] :: ['['] :: bytes =>
      match readNumber len, readBytes bytes with
      | some len, some bs => some (.rxPayload t len bs)
      | _, _ => none
    | _ => none
  else none

/-- Read an operation line from its tokens. -/
def readOperation (name : List Char) (time : List Char) (args : List (List Char)) : Option SourceLine :=
  match readBits 32 time with
  | none => none
  | some t =>
    match readOpcode name with
    | some o => (readOperands o t args).map .op
    | none => (readPseudo name t args).map .pseudo

/-- Read one line from its tokens; `none` where it is no line of R76 (DESIGN CHOICE, log 31: the text is then unreadable,
with no reason named). -/
def readTokens (toks : List (List Char)) : Option SourceLine :=
  match toks with
  | [] => some .blank
  | name :: ['@'] :: time :: args => readOperation name time args
  | [word, r] =>
    if word == "role".toList then
      if r == "TX".toList then some (.role .tx)
      else if r == "RX".toList then some (.role .rx)
      else none
    else none
  | [word, name, ['='], value] =>
    if word == "param".toList then (readNumber value).map (.param name) else none
  | _ => none

/-- Read one line (R76). -/
def readLine (line : List Char) : Option SourceLine := readTokens (tokens line)

/-! ### Loading a whole text -/

/-- Set a parameter of R8 by its name there; `none` for any other name. `ROLE` has its own line (R76), and the widths and
the derived `PAYLOAD_LEN` cannot be set (DESIGN CHOICE, log 24: R8 gives each one value). -/
def setParam (p : Params) (name : List Char) (v : Nat) : Option Params :=
  if name == "N_CH".toList then some { p with nCh := v }
  else if name == "FRAME_PERIOD".toList then some { p with framePeriod := v }
  else if name == "PULSE_WIDTH".toList then some { p with pulseWidth := v }
  else if name == "SYNC_THRESHOLD".toList then some { p with syncThreshold := v }
  else if name == "SRC_LOSS_THRESHOLD".toList then some { p with srcLossThreshold := v }
  else if name == "SNK_LOSS_THRESHOLD".toList then some { p with snkLossThreshold := v }
  else if name == "CH_MIN".toList then some { p with chMin := v }
  else if name == "CH_MAX".toList then some { p with chMax := v }
  else if name == "CH_RESET".toList then some { p with chReset := v }
  else if name == "TICK_PERIOD".toList then some { p with tickPeriod := v }
  else if name == "ENC_START_DELAY".toList then some { p with encStartDelay := v }
  else if name == "PEER_ADDR".toList then some { p with peerAddr := v }
  else none

/-- A trace text that has been read: the role, the parameters and the event words. -/
structure TraceText where
  /-- `ROLE` as a `role` line sets it; `none` where the text has no such line. R76 does not say whether that is a text at
  all. DESIGN CHOICE, log 30: it is one, and `ROLE` stays OPEN (R8). -/
  role : Option Role
  /-- The parameters of R8, each at its default or as a `param` line sets it. -/
  params : Params
  /-- The event words, first one first. -/
  words : List EventWord
  deriving DecidableEq, Repr

/-- Before any line: no role, the parameters of R8, no operation. -/
def TraceText.start : TraceText where
  role := none
  params := Params.standard
  words := []

/-- One more line. `role` and `param` lines stand at the head, before every operation; a second `role` line is refused,
and a second `param` line for one name replaces the first (DESIGN CHOICE, log 24). A pseudo-operation is numbered by the
words before it. -/
def addLine (x : TraceText) (l : SourceLine) : Option TraceText :=
  match l with
  | .blank => some x
  | .role r => if x.words = [] ∧ x.role = none then some { x with role := some r } else none
  | .param name v =>
    if x.words = [] then (setParam x.params name v).map (fun p => { x with params := p }) else none
  | .op i => some { x with words := x.words ++ [encode i] }
  | .pseudo q => some { x with words := x.words ++ (expand x.params x.words.length q).map encode }

/-- Cut a text at its line ends. -/
def splitLines : List Char → List Char → List (List Char)
  | acc, [] => [acc.reverse]
  | acc, c :: cs => if c == '\n' then acc.reverse :: splitLines [] cs else splitLines (c :: acc) cs

/-- Read the lines of a text one after another. -/
def readLines : TraceText → List (List Char) → Option TraceText
  | x, [] => some x
  | x, l :: ls =>
    match readLine l with
    | none => none
    | some sl =>
      match addLine x sl with
      | none => none
      | some y => readLines y ls

/-- Read a trace text. A text with no `role` line is accepted, with `role` left `none` (DESIGN CHOICE, log 30: the spec
does not say whether it is a text). -/
def readTrace (cs : List Char) : Option TraceText := readLines TraceText.start (splitLines [] cs)

/-- `ROLE` of the instance a text is about: as its `role` line sets it (R76); where it has none, the role `openRole` it
is loaded for, `ROLE` being an OPEN parameter (R8; DESIGN CHOICE, log 30). -/
def TraceText.roleFor (x : TraceText) (openRole : Role) : Role :=
  match x.role with
  | some r => r
  | none => openRole

/-- The instance a trace text is about, with that trace before it: of the role its `role` line sets (R76), or of `openRole`
where it has none (log 30). The registers, unspecified before the first RESET (R81, log 26), are those of `tx` or of
`rx`. -/
def TraceText.load (x : TraceText) (openRole : Role) (tx : TxNode) (rx : RxNode) : State :=
  match x.roleFor openRole with
  | .tx => State.beforeReset x.params (.tx tx) x.words
  | .rx => State.beforeReset x.params (.rx rx) x.words

end Sys2Proof.Machine
end

