-- ==== Sys2Proof/Machine/Registers.lean ====
section
/-! DEFINITION. How the registers are numbered, encoded and shown: the numbers of spec/10_state.md R38, the encodings
of spec/30_encoding.md R82, the output ports of spec/60_exceptions.md R153, R157. Labels for dumps and logs: no
register is addressable by software, and reading one here is no operation. -/

namespace Sys2Proof.Machine

/-! ### Encodings (R82) -/

/-- ACTIVE = 0, LOST = 1. -/
def LinkState.encode : LinkState → BitVec 1
  | .active => 0
  | .lost => 1

/-- The link a bit stands for. -/
def LinkState.decode (b : BitVec 1) : LinkState := if b = 1 then .lost else .active

/-- PULSE_HIGH = 0, PULSE_LOW_CHANNEL = 1, PULSE_LOW_SYNC = 2, FRAME_GAP = 3. -/
def EncState.encode : EncState → BitVec 2
  | .pulseHigh => 0
  | .pulseLowChannel => 1
  | .pulseLowSync => 2
  | .frameGap => 3

/-- The phase two bits stand for. -/
def EncState.decode (b : BitVec 2) : EncState :=
  if b = 0 then .pulseHigh
  else if b = 1 then .pulseLowChannel
  else if b = 2 then .pulseLowSync
  else .frameGap

/-- TX = 0, RX = 1. -/
def roleCode : Role → BitVec 1
  | .tx => 0
  | .rx => 1

/-- `ppm_out`, `status_out`: 0 low or not asserted, 1 high or asserted. -/
def levelCode (b : Bool) : BitVec 1 := if b then 1 else 0

/-! ### Register numbers (R38) -/

/-- A register of R38: `s k` is S0 to S10, `c i` is `ch[i]`, `b i` is `tx_buf[i]`. -/
inductive Reg where
  | s (k : Nat)
  | c (i : Nat)
  | b (i : Nat)
  deriving DecidableEq, Repr

/-- What stands in a numbered register of a TX node; `none` for a number its role does not have. -/
def TxNode.readReg (n : TxNode) (r : Reg) : Option Nat :=
  match r with
  | .s 0 => some n.decIdx.toNat
  | .s 1 => some n.lastEdgeTime.toNat
  | .s 2 => some n.srcLink.encode.toNat
  | .s 10 => some (levelCode n.srcLink.status).toNat
  | .s _ => none
  | .c i => (n.ch[i]?).map BitVec.toNat
  | .b i => (n.txBuf[i]?).map BitVec.toNat

/-- What stands in a numbered register of an RX node; `none` for a number its role does not have. -/
def RxNode.readReg (n : RxNode) (r : Reg) : Option Nat :=
  match r with
  | .s 3 => some n.lastRxTime.toNat
  | .s 4 => some n.snkLink.encode.toNat
  | .s 5 => some n.encState.encode.toNat
  | .s 6 => some n.encIdx.toNat
  | .s 7 => some n.encSum.toNat
  | .s 8 => some (levelCode n.ppmOut).toNat
  | .s 9 => some n.tmrDeadline.toNat
  | .s 10 => some (levelCode n.snkLink.status).toNat
  | .s _ => none
  | .c i => (n.ch[i]?).map BitVec.toNat
  | .b _ => none

/-- The numbered registers of an instance. -/
def Node.readReg (n : Node) (r : Reg) : Option Nat :=
  match n with
  | .tx m => m.readReg r
  | .rx m => m.readReg r

/-- The registers of a role with `nCh` channels, in the order of R38. -/
def regsOf (r : Role) (nCh : Nat) : List Reg :=
  match r with
  | .tx => [.s 0, .s 1, .s 2, .s 10] ++ (List.range nCh).map .c ++ (List.range nCh).map .b
  | .rx => [.s 3, .s 4, .s 5, .s 6, .s 7, .s 8, .s 9, .s 10] ++ (List.range nCh).map .c

/-- A dump of every register an instance has. -/
def State.dump (s : State) : List (Reg × Option Nat) :=
  (regsOf s.role s.params.nCh).map (fun r => (r, s.node.readReg r))

/-! ### Output ports (R153) -/

/-- Port `ppm_out`; a TX node has none. -/
def Node.ppmLevel : Node → Option Bool
  | .tx _ => none
  | .rx n => some n.ppmOut

/-- Port `dbg`: the ChannelFrame as it is (R157). -/
def Node.dbg : Node → List Channel
  | .tx n => n.ch
  | .rx n => n.ch

end Sys2Proof.Machine
end

