-- ==== Sys2Proof/Safety.lean ====
section
/-! DEFINITION. The terms the claims use: the invariants of a whole instance, sequences of operations, and the waveform
of a frame (spec/43_encoder.md R126). -/

namespace Sys2Proof.Machine

/-! ### Invariants -/

/-- R40, for a configuration R9 admits. -/
def State.Inv (s : State) : Prop := Legal s.params ∧ NodeInv s.params s.node

/-- The pending expiry of an RX node is not behind the trace: the deadline is at or after the last operation's time
(R15(b), R130, R81(c)). -/
def State.TimerAhead (s : State) : Prop :=
  ∀ n, s.node = .rx n → notBefore n.tmrDeadline s.monitor.now = true

/-- A payload window is open only on an RX node, at an index below `N_CH` (R80). -/
def State.WindowInv (s : State) : Prop :=
  ∀ k, s.monitor.window = some k → s.role = .rx ∧ k.toNat < s.params.nCh

/-- A safe step answers a next state. -/
def State.SafeStep (s : State) : Prop := ∃ t, step s = .next t

/-! ### Words and records -/

/-- The condition each reason of R74 names, for a word `w` on an instance of role `r` with `nCh` channels. -/
def ReasonHolds (nCh : Nat) (r : Role) (w : EventWord) : WordReason → Prop
  | .badOpcode => ∀ o : Opcode, o.code ≠ opField w
  | .badReservedField =>
    ∃ o : Opcode, o.code = opField w ∧
      ((aField w ≠ 0 ∧ (o.format = .t ∨ o.format = .l)) ∨ (vField w ≠ 0 ∧ (o.format = .t ∨ o.format = .i)))
  | .badIndex =>
    ∃ o : Opcode, o.code = opField w ∧ (o.format = .i ∨ o.format = .s) ∧ nCh ≤ (aField w).toNat
  | .wrongRole => ∃ o : Opcode, o.code = opField w ∧ ∃ q, o.role? = some q ∧ q ≠ r
  | .shortInput => False

/-- The time a record carries (R13). -/
def Output.time : Output → Time
  | .ppm t _ => t
  | .send t _ _ => t
  | .status t _ => t

/-- The `STATUS` records among some records. -/
def statusRecords (out : List Output) : List Output :=
  out.filter (fun o => match o with | .status _ _ => true | _ => false)

/-! ### Sequences of operations -/

/-- Run operations one after another, stopping at the first that answers no next state. -/
def execAll : List Instr → State → Answer
  | [], s => .next s
  | i :: is, s =>
    match exec i s with
    | .next t => execAll is t
    | .fault f => .fault f
    | .refused r => .refused r

/-- `DEC_EDGE` at each of the times `ts`. -/
def edgesAt (ts : List Time) : List Instr := ts.map .decEdge

/-- `ENC_FIRE` at each of the times `ts`. -/
def firesAt (ts : List Time) : List Instr := ts.map .encFire

/-- The times of edges `ds` apart, the first `d` after `t`. -/
def timesAfter (t : Time) : List Time → List Time
  | [] => []
  | d :: ds => add32 t d :: timesAfter (add32 t d) ds

/-! ### The waveform of a frame (R126) -/

/-- The rows of R126's table from the start of a channel's pulse at `t`: for each value a rise and, `PULSE_WIDTH`
later, a fall; then the marker pulse. Each row is the time and the level `ppm_out` takes. -/
def frameRows (p : Params) (t : Time) : List Channel → List (Time × Bool)
  | [] => [(t, true), (add32 t (micros p.pulseWidth), false)]
  | v :: vs =>
    (t, true) :: (add32 t (micros p.pulseWidth), false) :: frameRows p (add32 t (zext32 v)) vs

/-- The times at which the output falls. -/
def fallTimes (rows : List (Time × Bool)) : List Time :=
  rows.filterMap (fun r => if r.2 then none else some r.1)

/-- The log records of the rows. -/
def ppmRecords (rows : List (Time × Bool)) : List Output := rows.map (fun r => .ppm r.1 r.2)

/-- `S`, the sum of the values of a frame, in microseconds. -/
def widthSum (vs : List Channel) : Nat := (vs.map BitVec.toNat).sum

/-- The time the frame in progress started, read back from the encoder's registers: in the gap, one `FRAME_PERIOD`
before the deadline; else the deadline less what has been emitted and, where a pulse is up, less the pulse (R126). -/
def RxNode.frameStart (p : Params) (n : RxNode) : Time :=
  match n.encState with
  | .pulseHigh => n.tmrDeadline - n.encSum - micros p.pulseWidth
  | .pulseLowChannel => n.tmrDeadline - n.encSum
  | .pulseLowSync => n.tmrDeadline - n.encSum - micros p.pulseWidth
  | .frameGap => n.tmrDeadline - micros p.framePeriod

end Sys2Proof.Machine
end

