-- ==== Sys2Proof/Certificates/Slice0/Obligations.lean ====
section
/-! DEFINITION. The statements about WPPM-CORE, from the numbered rules of spec/. Each docstring names the rule, or
says that the statement is derived, the spec's own inference, or the model's choice. -/

open Sys2Proof Sys2Proof.Machine

/-! ### Event words -/

/-- Derived (30_encoding.md sections 1 and 2): every well-formed operation, with every operand value, is what its
event word decodes to. -/
def Obligations.DecodeOfEncodeIsTheOperation : Prop :=
  ∀ (nCh : Nat) (i : Instr), i.WellFormed nCh → decodeWord nCh (encode i) = .ok i

/-- Derived (30_encoding.md sections 1 to 3): a word the decoder accepts is the word of the operation it reads, and
that operation is well formed; no word bit is ignored. -/
def Obligations.DecodedWordIsTheEncoding : Prop :=
  ∀ (nCh : Nat) (w : EventWord) (i : Instr), decodeWord nCh w = .ok i → encode i = w ∧ i.WellFormed nCh

/-- R73: the nine rows, and a word is a row's operation exactly when `w & mask = match` (with an index operand, where
the row has one, below the number of channels, R74(c)). -/
def Obligations.DecoderAgreesWithOpcodeTable : Prop :=
  Opcode.all.map (fun o => (o.mnemonic, o.code, o.format, o.role?, o.mask, o.pattern)) =
    [("DEC_EDGE", 0x10, .t, some .tx, 0xFFFFFFFF00000000, 0x1000000000000000),
     ("SRC_CHK", 0x11, .t, some .tx, 0xFFFFFFFF00000000, 0x1100000000000000),
     ("SRC_LD", 0x12, .i, some .tx, 0xFF00FFFF00000000, 0x1200000000000000),
     ("SRC_SEND", 0x13, .t, some .tx, 0xFFFFFFFF00000000, 0x1300000000000000),
     ("RX_HDR", 0x20, .l, some .rx, 0xFFFF000000000000, 0x2000000000000000),
     ("RX_ST", 0x21, .s, some .rx, 0xFF00000000000000, 0x2100000000000000),
     ("SNK_TICK", 0x22, .t, some .rx, 0xFFFFFFFF00000000, 0x2200000000000000),
     ("ENC_FIRE", 0x23, .t, some .rx, 0xFFFFFFFF00000000, 0x2300000000000000),
     ("RESET", 0xF0, .t, none, 0xFFFFFFFF00000000, 0xF000000000000000)] ∧
  (∀ o : Opcode, o ∈ Opcode.all) ∧
  ∀ (nCh : Nat) (w : EventWord) (o : Opcode),
    (∃ i, decodeWord nCh w = .ok i ∧ i.opcode = o) ↔
      (w &&& o.mask = o.pattern ∧
        (o.format = .i ∨ o.format = .s → ((w >>> 48).setWidth 8).toNat < nCh))

/-- R74: a word is refused exactly when one of the four reasons holds of it, and for a reason that holds. -/
def Obligations.RefusedWordsAreThoseOfTheFourReasons : Prop :=
  ∀ (nCh : Nat) (r : Role) (w : EventWord),
    ((∃ why, decodeFor nCh r w = .error why) ↔ ∃ why, ReasonHolds nCh r w why) ∧
    ∀ why, decodeFor nCh r w = .error why → ReasonHolds nCh r w why

/-- R70: an event word is `op`, `a`, `v`, `t` at bits 63:56, 55:48, 47:32 and 31:0. -/
def Obligations.EventWordLayout : Prop :=
  (∀ w : EventWord,
    (opField w).toNat = w.toNat / 2 ^ 56 ∧ (aField w).toNat = w.toNat / 2 ^ 48 % 2 ^ 8 ∧
    (vField w).toNat = w.toNat / 2 ^ 32 % 2 ^ 16 ∧ (tField w).toNat = w.toNat % 2 ^ 32) ∧
  ∀ i : Instr,
    (encode i).toNat =
      i.opcode.code.toNat * 2 ^ 56 + i.aOperand.toNat * 2 ^ 48 + i.vOperand.toNat * 2 ^ 32 + i.time.toNat

/-- R83: a trace is serialised with each word as 8 bytes, least significant byte first, words in order, nothing
between them; and the bytes give the trace back. -/
def Obligations.SerialisedTraceReadsBack : Prop :=
  (∀ (w : EventWord) (ws : List EventWord),
    serialise (w :: ws) = (List.range 8).map (fun k => (w >>> (8 * k)).setWidth 8) ++ serialise ws) ∧
  serialise [] = [] ∧
  ∀ ws : List EventWord, deserialise (serialise ws) = some ws

/-- Derived from words written out in 96_test_vectors_2.md V11: sample words of every format. -/
def Obligations.SampleWordsDecode : Prop :=
  decodeFor 8 .tx 0x1000000000005CEC = .ok (.decEdge 23788) ∧
  decodeFor 8 .tx 0x1207000000000064 = .ok (.srcLd 100 7) ∧
  decodeFor 8 .rx 0x21010BB800001388 = .ok (.rxSt 5000 1 3000) ∧
  decodeFor 8 .rx 0x2000001000001388 = .ok (.rxHdr 5000 16) ∧
  decodeFor 8 .rx 0xF0000000FFFFFC18 = .ok (.reset 4294966296) ∧
  decodeFor 8 .tx 0x1208000000000064 = .error .badIndex ∧
  decodeFor 8 .tx 0x2300000000000000 = .error .wrongRole

/-- Derived (30_encoding.md section 4): every operation printed in the syntax of R76 is read back as itself. -/
def Obligations.PrintedOperationReadsBack : Prop :=
  ∀ i : Instr, readLine (instrText i) = some (.op i)

/-! ### The step -/

/-- Derived (30_encoding.md sections 1 and 4): when the next event word decodes to an operation of this instance that
a well-formed trace may have here, the step is `exec` of it on the state with that word consumed, its time
remembered, and the payload window moved on. -/
def Obligations.StepRunsDecodedOperation : Prop :=
  ∀ (s : State) (w : EventWord) (rest : List EventWord) (i : Instr) (window : Option Index),
    Legal s.params → s.pending = w :: rest → decodeFor s.params.nCh s.role w = .ok i →
    s.monitor.started = true → (i.time - s.monitor.now).toNat < 2 ^ 31 →
    (∀ n, s.node = .rx n → i.time = n.tmrDeadline ∨ 2 ^ 31 ≤ (i.time - n.tmrDeadline).toNat) →
    nextWindow s.params s.monitor.window i = some window →
    step s = exec i { s with pending := rest, monitor := { started := true, now := i.time, window := window } }

/-- Derived (30_encoding.md section 4, R81(a); 10_state.md section 7): before the first RESET only RESET is run, in
any state of the registers, and it is run whatever its time. -/
def Obligations.FirstOperationIsReset : Prop :=
  ∀ (s : State) (w : EventWord) (rest : List EventWord) (i : Instr),
    Legal s.params → s.pending = w :: rest → decodeFor s.params.nCh s.role w = .ok i → s.monitor.started = false →
    ((∀ t, i ≠ .reset t) → step s = .refused .firstIsReset) ∧
    (∀ t, i = .reset t →
      step s = exec (.reset t) { s with pending := rest, monitor := { started := true, now := t, window := none } } ∧
      ∃ s', step s = .next s' ∧ s'.Inv)

/-- Derived (30_encoding.md section 4, R81). MODEL'S CHOICES: the name where two reasons hold (log 13), and that clause
(c) refuses a RESET after a due expiry like any operation, which is the model's reading of "no operation" beside R135(a)
(log 10). What breaks a well-formed trace is refused by the name R81 gives it: (e) a word that is no operation of
this instance, (a) a first operation that is not RESET, (b) a time before the last one, (c) an operation after a
deadline whose ENC_FIRE is due and an ENC_FIRE away from its deadline, (d) an RX_ST that is not the next store of an
accepted payload. -/
def Obligations.IllFormedTracesAreRefusedByName : Prop :=
  ∀ (s : State) (w : EventWord) (rest : List EventWord), Legal s.params → s.pending = w :: rest →
    (∀ why, decodeFor s.params.nCh s.role w = .error why → step s = .refused (.illegalWord w why)) ∧
    ∀ i, decodeFor s.params.nCh s.role w = .ok i →
      (s.monitor.started = false → (∀ t, i ≠ .reset t) → step s = .refused .firstIsReset) ∧
      (s.monitor.started = true →
        (2 ^ 31 ≤ (i.time - s.monitor.now).toNat → step s = .refused .timeOrder) ∧
        ((i.time - s.monitor.now).toNat < 2 ^ 31 →
          (∀ n, s.node = .rx n → i.time ≠ n.tmrDeadline → (i.time - n.tmrDeadline).toNat < 2 ^ 31 →
            step s = .refused .timerExact) ∧
          (∀ n t, s.node = .rx n → RxInv s.params n → i = .encFire t → t ≠ n.tmrDeadline →
            step s = .refused .timerExact) ∧
          (∀ n t k raw, s.node = .rx n → i = .rxSt t k raw → s.monitor.window ≠ some k →
            (t = n.tmrDeadline ∨ 2 ^ 31 ≤ (t - n.tmrDeadline).toNat) →
            step s = .refused .rxStInPayload)))

/-- The payload window (30_encoding.md section 4, R80; 42_sink_supervisor.md section 2): an accepted header opens it
at index 0, the next index follows each store, the store of the last index shuts it, every other operation of the
block leaves it alone. MODEL'S CHOICE, log 9: a header inside an unfinished expansion is refused, and RESET shuts the
window. -/
def Obligations.PayloadWindowFollowsTheExpansion : Prop :=
  ∀ (p : Params), Legal p →
    (∀ t (len : BitVec 16), nextWindow p none (.rxHdr t len) = some (if len.toNat = 2 * p.nCh then some 0 else none)) ∧
    (∀ t len k, nextWindow p (some k) (.rxHdr t len) = none) ∧
    (∀ t k raw, nextWindow p none (.rxSt t k raw) = none) ∧
    (∀ t (k j : Index) raw, k ≠ j → nextWindow p (some j) (.rxSt t k raw) = none) ∧
    (∀ t (k : Index) raw, k.toNat + 1 < p.nCh →
      ∃ j : Index, j.toNat = k.toNat + 1 ∧ nextWindow p (some k) (.rxSt t k raw) = some (some j)) ∧
    (∀ t (k : Index) raw, k.toNat + 1 = p.nCh → nextWindow p (some k) (.rxSt t k raw) = some none) ∧
    (∀ t w, nextWindow p w (.reset t) = some none) ∧
    (∀ t w k, nextWindow p w (.decEdge t) = some w ∧ nextWindow p w (.srcChk t) = some w ∧
      nextWindow p w (.srcLd t k) = some w ∧ nextWindow p w (.srcSend t) = some w ∧
      nextWindow p w (.snkTick t) = some w ∧ nextWindow p w (.encFire t) = some w)

/-- MODEL'S CHOICE, log 7 (00_scope.md section 6, D33: the block never halts): with no event word left a step changes
nothing. -/
def Obligations.StepWithoutEventChangesNothing : Prop :=
  ∀ s : State, Legal s.params → s.pending = [] → step s = .next s

/-- MODEL'S INTERFACE, log 6: placed as the next event word, every well-formed operation is what the very next step
runs, it answers a next state, and the trace that stood there stands there still. -/
def Obligations.PlacedWordIsRunByTheNextStep : Prop :=
  ∀ (s : State) (i : Instr), s.Inv → i.WellFormed s.params.nCh →
    ∃ (window : Option Index) (t : State),
      step (s.withFetchWord 64 (encode i).toNat) =
        exec i { s.prepareFor i with
          pending := s.pending, monitor := { started := true, now := i.time, window := window } } ∧
      step (s.withFetchWord 64 (encode i).toNat) = .next t ∧ t.pending = s.pending

/-- Derived (00_scope.md section 4, R9; the last bound, on `ENC_START_DELAY`, is the range R8 gives it): the constraints,
one by one, and a configuration that breaks one is refused. MODEL'S CHOICE, log 11: it is every step and every
operation that refuses it, before anything else. -/
def Obligations.IllegalConfigurationsAreRefused : Prop :=
  (∀ p : Params, Legal p ↔
    ((1 ≤ p.nCh ∧ p.nCh ≤ 255) ∧
      (p.pulseWidth ≤ p.chMin ∧ p.chMin ≤ p.chReset ∧ p.chReset ≤ p.chMax ∧ p.chMax ≤ 65535) ∧
      p.nCh * p.chMax + p.pulseWidth ≤ p.framePeriod ∧ p.syncThreshold ≤ 65535 ∧
      (p.chMax ≤ p.syncThreshold ∧ p.nCh * p.chMax + p.syncThreshold < p.framePeriod) ∧
      (p.framePeriod < 2 ^ 31 ∧ p.srcLossThreshold < 2 ^ 31 ∧ p.snkLossThreshold < 2 ^ 31 ∧
        p.tickPeriod < 2 ^ 31 ∧ p.encStartDelay < 2 ^ 31))) ∧
  ∀ s : State, ¬ Legal s.params →
    step s = .refused .badConfiguration ∧ ∀ i, exec i s = .refused .badConfiguration

/-- Derived (43_encoder.md section 3, R133; 93_implementation_defined.md, U7). R133 asks that a model refuse the encoder
combinations R40(b) excludes. MODEL'S READING, log 12: so is every other register state outside the invariants of R40 and
the array lengths, by every operation but RESET. -/
def Obligations.UnreachableStatesAreRefused : Prop :=
  ∀ (s : State) (i : Instr), Legal s.params → i.WellFormed s.params.nCh →
    i.role? = some s.role → ¬ NodeInv s.params s.node → exec i s = .refused .unreachableState

/-- Derived (60_exceptions.md section 1, R140: no condition is fatal): there is no fault; in a state within R40 a step
completes or is the refusal of a word or a trace (never of the state, never "not modelled"); and it completes when the word
is an operation of this instance, the trace monitor accepts it, and an ENC_FIRE is at its deadline. -/
def Obligations.StepsCompleteUnlessTheTraceIsIllFormed : Prop :=
  (∀ (s : State) (f : Fault), step s ≠ .fault f) ∧
  (∀ s : State, s.Inv → s.SafeStep ∨ step s = .refused .firstIsReset ∨ step s = .refused .timeOrder ∨
    step s = .refused .timerExact ∨ step s = .refused .rxStInPayload ∨
    ∃ w why, step s = .refused (.illegalWord w why)) ∧
  ∀ (s : State) (w : EventWord) (rest : List EventWord) (i : Instr) (m : Monitor), s.Inv → s.pending = w :: rest →
    decodeFor s.params.nCh s.role w = .ok i → observe s.params s.node s.monitor i = .ok m →
    (∀ n t, s.node = .rx n → i = .encFire t → t = n.tmrDeadline) → s.SafeStep

/-- Derived (00_scope.md section 1, R2; 30_encoding.md section 3): an instance accepts no operation of the other role,
and has none of the other role's registers. MODEL'S CHOICES: the name of the refusal where the index is out of range too
(the index is tested first: log 13), and that a register number the role does not have reads as none (log 29). -/
def Obligations.RolesAreDisjoint : Prop :=
  (∀ (s : State) (i : Instr) (r : Role), Legal s.params → i.role? = some r → r ≠ s.role →
    exec i s = .refused (.illegalWord (encode i)
      (if i.WellFormed s.params.nCh then .wrongRole else .badIndex))) ∧
  (∀ (n : TxNode) (k : Nat), 3 ≤ k → k ≤ 9 → (Node.tx n).readReg (.s k) = none) ∧
  (∀ (n : RxNode) (k : Nat), k ≤ 2 → (Node.rx n).readReg (.s k) = none) ∧
  (∀ (n : RxNode) (k : Nat), (Node.rx n).readReg (.b k) = none)

/-! ### The operations: what each answers, which is also all that it changes -/

/-- R90: `DEC_EDGE`, its three branches; every register, record and model field not written in the right-hand side is
unchanged. The stored 16 bits are the whole interval (R90(d)). -/
def Obligations.DecEdgeDecodes : Prop :=
  (Opcode.decEdge.code = 0x10 ∧ Opcode.decEdge.format = .t ∧ Opcode.decEdge.role? = some .tx) ∧
  ∀ (s : State) (n : TxNode) (t : Time), s.node = .tx n → Legal s.params → TxInv s.params n →
    ((t - n.lastEdgeTime).toNat ≤ s.params.syncThreshold →
      ((t - n.lastEdgeTime).setWidth 16 : Channel).toNat = (t - n.lastEdgeTime).toNat) ∧
    exec (.decEdge t) s = .next
      (if s.params.syncThreshold < (t - n.lastEdgeTime).toNat then
        { s with
          node := .tx { n with lastEdgeTime := t, decIdx := 0, srcLink := .active }
          log := s.log ++ (if n.srcLink = .lost then [.status t false] else []) }
      else if n.decIdx.toNat < s.params.nCh then
        { s with
          node := .tx { n with
            lastEdgeTime := t
            ch := n.ch.set n.decIdx.toNat ((t - n.lastEdgeTime).setWidth 16)
            decIdx := n.decIdx + 1 } }
      else { s with node := .tx { n with lastEdgeTime := t } })

/-- R100: `SRC_CHK` sets LOST when the time since the last edge exceeds the threshold, else changes nothing. -/
def Obligations.SrcChkDeclaresLoss : Prop :=
  (Opcode.srcChk.code = 0x11 ∧ Opcode.srcChk.format = .t ∧ Opcode.srcChk.role? = some .tx) ∧
  ∀ (s : State) (n : TxNode) (t : Time), s.node = .tx n → Legal s.params → TxInv s.params n →
    exec (.srcChk t) s = .next
      (if s.params.srcLossThreshold < (t - n.lastEdgeTime).toNat then
        { s with
          node := .tx { n with srcLink := .lost }
          log := s.log ++ (if n.srcLink = .active then [.status t true] else []) }
      else s)

/-- R101: `SRC_LD` copies one element into the snapshot, whatever the link, and changes nothing else. -/
def Obligations.SrcLdCopiesOneElement : Prop :=
  (Opcode.srcLd.code = 0x12 ∧ Opcode.srcLd.format = .i ∧ Opcode.srcLd.role? = some .tx) ∧
  ∀ (s : State) (n : TxNode) (t : Time) (k : Index), s.node = .tx n → Legal s.params → TxInv s.params n →
    k.toNat < s.params.nCh →
    ∃ v, n.ch[k.toNat]? = some v ∧
      exec (.srcLd t k) s = .next { s with node := .tx { n with txBuf := n.txBuf.set k.toNat v } }

/-- R102: `SRC_SEND` changes no register; when the link is ACTIVE it sends the snapshot to the peer, each value low
byte first. -/
def Obligations.SrcSendTransmitsWhenActive : Prop :=
  (Opcode.srcSend.code = 0x13 ∧ Opcode.srcSend.format = .t ∧ Opcode.srcSend.role? = some .tx) ∧
  ∀ (s : State) (n : TxNode) (t : Time), s.node = .tx n → Legal s.params → TxInv s.params n →
    exec (.srcSend t) s = .next
      (if n.srcLink = .active then
        { s with
          log := s.log ++ [.send t s.params.peerAddr
            (n.txBuf.flatMap (fun v => [BitVec.ofNat 8 v.toNat, BitVec.ofNat 8 (v.toNat / 256)]))] }
      else s)

/-- R110: `RX_HDR` records the time of a payload of the right length; of any other length it changes nothing. -/
def Obligations.RxHdrRecordsValidPayload : Prop :=
  (Opcode.rxHdr.code = 0x20 ∧ Opcode.rxHdr.format = .l ∧ Opcode.rxHdr.role? = some .rx) ∧
  ∀ (s : State) (n : RxNode) (t : Time) (len : BitVec 16), s.node = .rx n → Legal s.params → RxInv s.params n →
    exec (.rxHdr t len) s = .next
      (if len.toNat = 2 * s.params.nCh then { s with node := .rx { n with lastRxTime := t } } else s)

/-- R111: `RX_ST` stores the value clamped into [`CH_MIN`, `CH_MAX`] and changes nothing else. -/
def Obligations.RxStStoresClamped : Prop :=
  (Opcode.rxSt.code = 0x21 ∧ Opcode.rxSt.format = .s ∧ Opcode.rxSt.role? = some .rx) ∧
  ∀ (s : State) (n : RxNode) (t : Time) (k : Index) (raw : Channel), s.node = .rx n → Legal s.params →
    RxInv s.params n → k.toNat < s.params.nCh →
    ∃ v : Channel,
      v.toNat = (if raw.toNat < s.params.chMin then s.params.chMin
        else if s.params.chMax < raw.toNat then s.params.chMax else raw.toNat) ∧
      exec (.rxSt t k raw) s = .next { s with node := .rx { n with ch := n.ch.set k.toNat v } }

/-- R112: `SNK_TICK` recomputes the link from the time since the last accepted payload. -/
def Obligations.SnkTickRecomputesLink : Prop :=
  (Opcode.snkTick.code = 0x22 ∧ Opcode.snkTick.format = .t ∧ Opcode.snkTick.role? = some .rx) ∧
  ∀ (s : State) (n : RxNode) (t : Time), s.node = .rx n → Legal s.params → RxInv s.params n →
    exec (.snkTick t) s = .next
      (if s.params.snkLossThreshold < (t - n.lastRxTime).toNat then
        { s with
          node := .rx { n with snkLink := .lost }
          log := s.log ++ (if n.snkLink = .active then [.status t true] else []) }
      else
        { s with
          node := .rx { n with snkLink := .active }
          log := s.log ++ (if n.snkLink = .lost then [.status t false] else []) })

/-- R120: `ENC_FIRE` is enabled exactly at `tmr_deadline`; there it takes the branch `enc_state` and `enc_idx` choose
(the five branches are the statements below), re-arms the timer from the old deadline, outputs the new level, and
leaves `ch` and the sink supervisor's registers alone. -/
def Obligations.EncFireDispatchesAtTheDeadline : Prop :=
  (Opcode.encFire.code = 0x23 ∧ Opcode.encFire.format = .t ∧ Opcode.encFire.role? = some .rx) ∧
  ∀ (s : State) (n : RxNode) (t : Time), s.node = .rx n → Legal s.params → RxInv s.params n →
    (t ≠ n.tmrDeadline → exec (.encFire t) s = .refused .timerExact) ∧
    (t = n.tmrDeadline →
      ∃ (m : RxNode) (d : Time),
        exec (.encFire t) s = .next
          { s with
            node := .rx { m with tmrDeadline := n.tmrDeadline + d }
            log := s.log ++ [.ppm t m.ppmOut] } ∧
        (n.encState = .pulseHigh →
          ∃ v, n.ch[n.encIdx.toNat]? = some v ∧ (m, d) = endChannelPulse s.params v n) ∧
        (n.encState = .pulseLowChannel → n.encIdx.toNat < s.params.nCh → (m, d) = startNextPulse s.params n) ∧
        (n.encState = .pulseLowChannel → ¬ n.encIdx.toNat < s.params.nCh → (m, d) = startMarkerPulse s.params n) ∧
        (n.encState = .pulseLowSync → (m, d) = startFrameGap s.params n) ∧
        (n.encState = .frameGap → (m, d) = startFrame s.params n) ∧
        m.ch = n.ch ∧ m.lastRxTime = n.lastRxTime ∧ m.snkLink = n.snkLink)

/-- R121: the pulse of channel `enc_idx` ends; the low period is the channel's value less the pulse, never
saturating, in every state within R40. -/
def Obligations.EncFireEndsChannelPulse : Prop :=
  ∀ (s : State) (n : RxNode), s.node = .rx n → Legal s.params → RxInv s.params n → n.encState = .pulseHigh →
    ∃ v : Channel, n.ch[n.encIdx.toNat]? = some v ∧ s.params.pulseWidth ≤ v.toNat ∧
      (n.encSum + v.setWidth 32).toNat = n.encSum.toNat + v.toNat ∧ (n.encIdx + 1).toNat = n.encIdx.toNat + 1 ∧
      exec (.encFire n.tmrDeadline) s = .next
        { s with
          node := .rx { n with
            ppmOut := false
            encSum := n.encSum + v.setWidth 32
            encIdx := n.encIdx + 1
            encState := .pulseLowChannel
            tmrDeadline := n.tmrDeadline + BitVec.ofNat 32 (v.toNat - s.params.pulseWidth) }
          log := s.log ++ [.ppm n.tmrDeadline false] }

/-- R122: a low period ends before the last channel; the next channel's pulse starts. -/
def Obligations.EncFireStartsNextPulse : Prop :=
  ∀ (s : State) (n : RxNode), s.node = .rx n → Legal s.params → RxInv s.params n →
    n.encState = .pulseLowChannel → n.encIdx.toNat < s.params.nCh →
    exec (.encFire n.tmrDeadline) s = .next
      { s with
        node := .rx { n with
          ppmOut := true
          encState := .pulseHigh
          tmrDeadline := n.tmrDeadline + BitVec.ofNat 32 s.params.pulseWidth }
        log := s.log ++ [.ppm n.tmrDeadline true] }

/-- R123: the last low period ends; the marker pulse starts, and it is high. -/
def Obligations.EncFireStartsMarkerPulse : Prop :=
  ∀ (s : State) (n : RxNode), s.node = .rx n → Legal s.params → RxInv s.params n →
    n.encState = .pulseLowChannel → n.encIdx.toNat = s.params.nCh →
    exec (.encFire n.tmrDeadline) s = .next
      { s with
        node := .rx { n with
          ppmOut := true
          encState := .pulseLowSync
          tmrDeadline := n.tmrDeadline + BitVec.ofNat 32 s.params.pulseWidth }
        log := s.log ++ [.ppm n.tmrDeadline true] }

/-- R124: the marker pulse ends; the gap is what remains of the frame period, never saturating in a state within R40,
and the frame's bookkeeping is reset. -/
def Obligations.EncFireStartsFrameGap : Prop :=
  ∀ (s : State) (n : RxNode), s.node = .rx n → Legal s.params → RxInv s.params n → n.encState = .pulseLowSync →
    n.encSum.toNat + s.params.pulseWidth ≤ s.params.framePeriod ∧
    exec (.encFire n.tmrDeadline) s = .next
      { s with
        node := .rx { n with
          ppmOut := false
          encIdx := 0
          encSum := 0
          encState := .frameGap
          tmrDeadline := n.tmrDeadline +
            BitVec.ofNat 32 (s.params.framePeriod - (n.encSum.toNat + s.params.pulseWidth)) }
        log := s.log ++ [.ppm n.tmrDeadline false] }

/-- R125: the gap ends; the pulse of channel 0 starts the next frame. -/
def Obligations.EncFireStartsFrame : Prop :=
  ∀ (s : State) (n : RxNode), s.node = .rx n → Legal s.params → RxInv s.params n → n.encState = .frameGap →
    (n.encIdx = 0 ∧ n.encSum = 0) ∧
    exec (.encFire n.tmrDeadline) s = .next
      { s with
        node := .rx { n with
          ppmOut := true
          encState := .pulseHigh
          tmrDeadline := n.tmrDeadline + BitVec.ofNat 32 s.params.pulseWidth }
        log := s.log ++ [.ppm n.tmrDeadline true] }

/-- R135: `RESET`, on either role and in any state of the registers, reachable or not. The records are those R135
lists (its STATUS record whatever the link was: log 16). -/
def Obligations.ResetWritesEveryRegister : Prop :=
  (Opcode.reset.code = 0xF0 ∧ Opcode.reset.format = .t ∧ Opcode.reset.role? = none) ∧
  ∀ (s : State) (t : Time), Legal s.params →
    (∀ n, s.node = .tx n →
      exec (.reset t) s = .next
        { s with
          node := .tx
            { ch := List.replicate s.params.nCh (BitVec.ofNat 16 s.params.chReset)
              txBuf := List.replicate s.params.nCh (BitVec.ofNat 16 s.params.chReset)
              decIdx := BitVec.ofNat 8 s.params.nCh
              lastEdgeTime := t
              srcLink := .lost }
          log := s.log ++ [.status t true] }) ∧
    (∀ n, s.node = .rx n →
      exec (.reset t) s = .next
        { s with
          node := .rx
            { ch := List.replicate s.params.nCh (BitVec.ofNat 16 s.params.chReset)
              lastRxTime := t
              snkLink := .lost
              encState := .frameGap
              encIdx := 0
              encSum := 0
              ppmOut := false
              tmrDeadline := t + BitVec.ofNat 32 s.params.encStartDelay }
          log := s.log ++ [.ppm t false, .status t true] })

/-- R12: the arithmetic primitives, as numbers. -/
def Obligations.ArithmeticPrimitivesAreExact : Prop :=
  (∀ t t0 : Time, (elapsed t t0).toNat = (t.toNat + (2 ^ 32 - t0.toNat)) % 2 ^ 32) ∧
  (∀ a b : Time, (satsub a b).toNat = a.toNat - b.toNat) ∧
  (∀ a b : Time, (add32 a b).toNat = (a.toNat + b.toNat) % 2 ^ 32) ∧
  (∀ (e : Time) (k : Nat), exceeds e k = true ↔ k < e.toNat) ∧
  (∀ (p : Params) (v : Channel), Legal p → (clamp p v).toNat = max p.chMin (min p.chMax v.toNat)) ∧
  (∀ v : Channel, ∃ b0 b1 : Byte, le16 v = [b0, b1] ∧ v.toNat = b0.toNat + 256 * b1.toNat ∧ fromLe16 b0 b1 = v)

/-- Derived (41_source_supervisor.md section 2, R105): LOST is cleared at the instant of a sync edge, and the next SRC_SEND after it transmits whatever the
snapshot holds; while LOST nothing is sent. -/
def Obligations.SyncEdgeClearsLossAtOnce : Prop :=
  ∀ (s : State) (n : TxNode) (t t' : Time), s.node = .tx n → Legal s.params → TxInv s.params n → n.srcLink = .lost →
    s.params.syncThreshold < (t - n.lastEdgeTime).toNat →
    exec (.srcSend t) s = .next s ∧
    ∃ s1 s2, exec (.decEdge t) s = .next s1 ∧ exec (.srcSend t') s1 = .next s2 ∧
      s2.log = s.log ++ [.status t false, .send t' s.params.peerAddr (payloadBytes n.txBuf)]

/-! ### Rules about every operation -/

/-- R137 (with R8, R36): no operation writes a parameter; nor does one change the role, the trace still to come or
what the model remembers of the trace. -/
def Obligations.ConfigurationIsNeverWritten : Prop :=
  ∀ (i : Instr) (s t : State), exec i s = .next t →
    t.params = s.params ∧ t.role = s.role ∧ t.monitor = s.monitor ∧ t.pending = s.pending

/-- R93: on a TX node an element of `ch` changes only when a channel pulse at its index is decoded, or by RESET
(R135). -/
def Obligations.StaleChannelValuesPersist : Prop :=
  ∀ (i : Instr) (s t : State) (n m : TxNode) (k : Nat),
    exec i s = .next t → s.node = .tx n → t.node = .tx m → m.ch[k]? ≠ n.ch[k]? →
    (∃ t0, i = .reset t0) ∨
    ∃ t0, i = .decEdge t0 ∧ k = n.decIdx.toNat ∧ k < s.params.nCh ∧
      (t0 - n.lastEdgeTime).toNat ≤ s.params.syncThreshold

/-- Derived (10_state.md sections 4 and 6): the writers of every register of a TX node; RESET writes them all. The
link goes to LOST only by a check past the threshold and to ACTIVE only by a sync edge. -/
def Obligations.TxRegistersHaveTheirWriters : Prop :=
  ∀ (i : Instr) (s t : State) (n m : TxNode), (∀ t0, i ≠ .reset t0) →
    exec i s = .next t → s.node = .tx n → t.node = .tx m →
    (m.txBuf ≠ n.txBuf → ∃ t0 k, i = .srcLd t0 k) ∧
    (m.ch ≠ n.ch → ∃ t0, i = .decEdge t0) ∧
    (m.decIdx ≠ n.decIdx → ∃ t0, i = .decEdge t0) ∧
    (m.lastEdgeTime ≠ n.lastEdgeTime → ∃ t0, i = .decEdge t0) ∧
    (n.srcLink = .active → m.srcLink = .lost →
      ∃ t0, i = .srcChk t0 ∧ s.params.srcLossThreshold < (t0 - n.lastEdgeTime).toNat) ∧
    (n.srcLink = .lost → m.srcLink = .active →
      ∃ t0, i = .decEdge t0 ∧ s.params.syncThreshold < (t0 - n.lastEdgeTime).toNat)

/-- Derived (10_state.md section 6): the writers of every register of an RX node; RESET writes them all. -/
def Obligations.RxRegistersHaveTheirWriters : Prop :=
  ∀ (i : Instr) (s t : State) (n m : RxNode), (∀ t0, i ≠ .reset t0) →
    exec i s = .next t → s.node = .rx n → t.node = .rx m →
    (∀ k : Nat, m.ch[k]? ≠ n.ch[k]? → ∃ t0 j raw, i = .rxSt t0 j raw ∧ k = j.toNat) ∧
    (m.lastRxTime ≠ n.lastRxTime → ∃ t0 len, i = .rxHdr t0 len ∧ len.toNat = s.params.payloadLen) ∧
    (m.snkLink ≠ n.snkLink → ∃ t0, i = .snkTick t0) ∧
    ((m.encState, m.encIdx, m.encSum, m.ppmOut, m.tmrDeadline) ≠
      (n.encState, n.encIdx, n.encSum, n.ppmOut, n.tmrDeadline) → i = .encFire n.tmrDeadline)

/-- R113, R114: neither ENC_FIRE nor a write of `ch` reads a register of the sink supervisor: on two RX nodes that
differ in those registers only, they do the same and leave those registers as they were. And no other operation of an RX node
reads an encoder register: two nodes that agree on `ch` and the sink supervisor's registers are left agreeing on them. The
records are the same. -/
def Obligations.EncoderAndSinkSupervisorAreIndependent : Prop :=
  ∀ (i : Instr) (s1 s2 t1 t2 : State) (n1 n2 m1 m2 : RxNode), s1.params = s2.params →
    s1.node = .rx n1 → s2.node = .rx n2 → t1.node = .rx m1 → t2.node = .rx m2 →
    exec i s1 = .next t1 → exec i s2 = .next t2 →
    (((∃ t, i = .encFire t) ∨ ∃ t k raw, i = .rxSt t k raw) →
      n2 = { n1 with lastRxTime := n2.lastRxTime, snkLink := n2.snkLink } →
      m2 = { m1 with lastRxTime := n2.lastRxTime, snkLink := n2.snkLink } ∧
      ∃ out, t1.log = s1.log ++ out ∧ t2.log = s2.log ++ out) ∧
    ((∀ t, i ≠ .encFire t) → n1.ch = n2.ch → n1.lastRxTime = n2.lastRxTime → n1.snkLink = n2.snkLink →
      m1.ch = m2.ch ∧ m1.lastRxTime = m2.lastRxTime ∧ m1.snkLink = m2.snkLink ∧
      ∃ out, t1.log = s1.log ++ out ∧ t2.log = s2.log ++ out)

/-- R33: `status_out` is asserted exactly while the link is LOST, and an operation that changes the link register logs
a STATUS record of the new level. Operations other than RESET log no other STATUS record (RESET logs one always: R135,
log 16). -/
def Obligations.StatusFollowsTheLink : Prop :=
  (∀ n : TxNode, (Node.tx n).statusOut = true ↔ n.srcLink = .lost) ∧
  (∀ n : RxNode, (Node.rx n).statusOut = true ↔ n.snkLink = .lost) ∧
  ∀ (i : Instr) (s t : State), exec i s = .next t →
    ∃ out, t.log = s.log ++ out ∧
      (t.node.link ≠ s.node.link → .status i.time t.node.statusOut ∈ out) ∧
      ((∀ t0, i ≠ .reset t0) →
        statusRecords out = (if t.node.link = s.node.link then [] else [.status i.time t.node.statusOut]))

/-- Derived (00_scope.md section 5, R13): an operation only adds to the log, with its own time on every record; a
PPM record is there exactly for ENC_FIRE and carries the new level of `ppm_out`; a SEND record is there exactly for
SRC_SEND on a live source (RESET apart, R135). -/
def Obligations.RecordsOfAnOperation : Prop :=
  ∀ (i : Instr) (s t : State), (∀ t0, i ≠ .reset t0) → exec i s = .next t →
    ∃ out, t.log = s.log ++ out ∧ (∀ o ∈ out, o.time = i.time) ∧
      (∀ t0 l, .ppm t0 l ∈ out ↔ (i = .encFire t0 ∧ t.node.ppmLevel = some l)) ∧
      (∀ t0 a bs, .send t0 a bs ∈ out ↔
        (i = .srcSend t0 ∧ a = s.params.peerAddr ∧
          ∃ n, s.node = .tx n ∧ n.srcLink = .active ∧ bs = payloadBytes n.txBuf))

/-! ### Reset and invariants -/

/-- R39: every register after `RESET @t`, by its number of R38, for every configuration R9 admits; none is left
unspecified; and before the first RESET no other operation is accepted. -/
def Obligations.ResetValuesByRegister : Prop :=
  (∀ (p : Params) (t : Time), Legal p →
    ((nodeReset p .tx t).readReg (.s 0) = some p.nCh ∧ (nodeReset p .tx t).readReg (.s 1) = some t.toNat ∧
      (nodeReset p .tx t).readReg (.s 2) = some 1 ∧ (nodeReset p .tx t).readReg (.s 10) = some 1 ∧
      (∀ k < p.nCh, (nodeReset p .tx t).readReg (.c k) = some p.chReset ∧
        (nodeReset p .tx t).readReg (.b k) = some p.chReset)) ∧
    ((nodeReset p .rx t).readReg (.s 3) = some t.toNat ∧ (nodeReset p .rx t).readReg (.s 4) = some 1 ∧
      (nodeReset p .rx t).readReg (.s 5) = some 3 ∧ (nodeReset p .rx t).readReg (.s 6) = some 0 ∧
      (nodeReset p .rx t).readReg (.s 7) = some 0 ∧ (nodeReset p .rx t).readReg (.s 8) = some 0 ∧
      (nodeReset p .rx t).readReg (.s 9) = some ((t.toNat + p.encStartDelay) % 2 ^ 32) ∧
      (nodeReset p .rx t).readReg (.s 10) = some 1 ∧
      (∀ k < p.nCh, (nodeReset p .rx t).readReg (.c k) = some p.chReset)) ∧
    ∀ (r : Role), ∀ g ∈ regsOf r p.nCh, ∃ v, (nodeReset p r t).readReg g = some v) ∧
  (∀ (s : State) (t : Time), Legal s.params →
    ∃ u, exec (.reset t) s = .next u ∧ u.node = nodeReset s.params s.role t) ∧
  ∀ (s : State) (w : EventWord) (rest : List EventWord) (i : Instr),
    s.pending = w :: rest → s.monitor.started = false → decodeFor s.params.nCh s.role w = .ok i →
    (∀ t, i ≠ .reset t) → ∀ u, step s ≠ .next u

/-- R82: the numbers of the enumerated registers, and that each stands for one value. -/
def Obligations.EnumerationEncodings : Prop :=
  (LinkState.active.encode = 0 ∧ LinkState.lost.encode = 1) ∧
  (EncState.pulseHigh.encode = 0 ∧ EncState.pulseLowChannel.encode = 1 ∧ EncState.pulseLowSync.encode = 2 ∧
    EncState.frameGap.encode = 3) ∧
  (levelCode false = 0 ∧ levelCode true = 1) ∧ (roleCode .tx = 0 ∧ roleCode .rx = 1) ∧
  (∀ l : LinkState, LinkState.decode l.encode = l) ∧ (∀ e : EncState, EncState.decode e.encode = e)

/-- Derived (10_state.md section 8; the role, time and address of `State.reset` are the model's choice, logs 2, 3, 5):
right after reset, of any legal configuration, role and time, the invariants hold, and `State.reset` is such a
state. -/
def Obligations.ResetStateSatisfiesInvariants : Prop :=
  (∀ (p : Params) (r : Role) (t : Time), Legal p →
    (State.afterReset p r t).Inv ∧ (State.afterReset p r t).TimerAhead ∧ (State.afterReset p r t).WindowInv) ∧
  State.reset.Inv ∧ State.reset.TimerAhead ∧ State.reset.WindowInv

/-- The invariants of 10_state.md section 8 (R40, which the spec marks as derived): every step from a state that has
them leads to a state that has them: `ch` in the band on an RX node, index and phase of the encoder agreeing, the
output level agreeing with the phase, the running sum bounded, the decoder's index and values bounded. -/
def Obligations.EveryStepKeepsInvariants : Prop :=
  ∀ s t : State, s.Inv → step s = .next t → t.Inv

/-- Derived (43_encoder.md section 3, R130; 30_encoding.md section 4, R81(c)): the pending expiry never falls behind
the trace: every step keeps the deadline at or after the time of the last operation. -/
def Obligations.EveryStepKeepsTimerAhead : Prop :=
  ∀ s t : State, s.Inv → s.TimerAhead → step s = .next t → t.TimerAhead

/-- Derived (30_encoding.md section 4, R80; log 9): a payload window is open only on an RX node and at an index below
`N_CH`, at every step. -/
def Obligations.EveryStepKeepsPayloadWindow : Prop :=
  ∀ s t : State, s.Inv → s.WindowInv → step s = .next t → t.WindowInv

/-! ### What the operations add up to -/

/-- R95: a sync edge followed by intervals `ds`, each at most `SYNC_THRESHOLD`, leaves the first `N_CH` of them in
`ch` in order, every further one ignored, every element beyond them as it was, and `dec_idx` at their number or at
`N_CH`. -/
def Obligations.DecodedFrameEqualsItsIntervals : Prop :=
  ∀ (s : State) (n : TxNode) (t : Time) (ds : List Time), s.node = .tx n → Legal s.params → TxInv s.params n →
    s.params.syncThreshold < (t - n.lastEdgeTime).toNat → (∀ d ∈ ds, d.toNat ≤ s.params.syncThreshold) →
    ∃ (u : State) (m : TxNode), execAll (edgesAt (t :: timesAfter t ds)) s = .next u ∧ u.node = .tx m ∧
      m.decIdx.toNat = min ds.length s.params.nCh ∧ m.srcLink = .active ∧
      (∀ (k : Nat) (d : Time), k < s.params.nCh → ds[k]? = some d → (m.ch[k]?).map BitVec.toNat = some d.toNat) ∧
      (∀ k : Nat, ds.length ≤ k → m.ch[k]? = n.ch[k]?) ∧ m.txBuf = n.txBuf

/-- The frame of 43_encoder.md section 3 (R126, R127, which the spec derives): from the gap, ENC_FIRE at each time of
the table, and at no other, rises and falls `ppm_out` as the table says, and leaves the encoder in the gap again with
the deadline exactly one `FRAME_PERIOD` later, whatever the channel values. -/
def Obligations.EncoderEmitsTheFrameTable : Prop :=
  ∀ (s : State) (n : RxNode), s.node = .rx n → Legal s.params → RxInv s.params n → n.encState = .frameGap →
    execAll (firesAt ((frameRows s.params n.tmrDeadline n.ch).map Prod.fst)) s = .next
      { s with
        node := .rx { n with tmrDeadline := n.tmrDeadline + BitVec.ofNat 32 s.params.framePeriod }
        log := s.log ++ ppmRecords (frameRows s.params n.tmrDeadline n.ch) }

/-- 43_encoder.md section 3 (R129, which the spec derives): the same `ch` for two frames gives the same timing: the
second frame's rows are the first's with `FRAME_PERIOD` added to every time. -/
def Obligations.RepeatedFramesAreIdentical : Prop :=
  ∀ (s : State) (n : RxNode), s.node = .rx n → Legal s.params → RxInv s.params n → n.encState = .frameGap →
    ∃ (rows1 rows2 : List (Time × Bool)) (u : State),
      rows1.length = 2 * (s.params.nCh + 1) ∧
      rows2 = rows1.map (fun r => (r.1 + BitVec.ofNat 32 s.params.framePeriod, r.2)) ∧
      execAll (firesAt ((rows1 ++ rows2).map Prod.fst)) s = .next u ∧ u.log = s.log ++ ppmRecords (rows1 ++ rows2)

/-- 43_encoder.md section 3 (R127, R132, which the spec derives): frames start exactly `FRAME_PERIOD` apart, payloads
arriving in mid-frame or not: of all operations but RESET only the ENC_FIRE that ends the gap moves the frame's start
time, and by exactly one period. -/
def Obligations.FrameStartMovesByOnePeriod : Prop :=
  ∀ (i : Instr) (s t : State) (n m : RxNode), (∀ t0, i ≠ .reset t0) → exec i s = .next t →
    s.node = .rx n → t.node = .rx m →
    m.frameStart s.params =
      if n.encState = .frameGap ∧ m.encState = .pulseHigh then
        n.frameStart s.params + BitVec.ofNat 32 s.params.framePeriod
      else n.frameStart s.params

/-- 43_encoder.md section 3 (R128, which the spec derives): the falling edges of two consecutive frames, values `us`
then `vs`, fed to a decoder in any state within R40, leave exactly `vs` in its `ch`, the index at `N_CH` and the link
ACTIVE. -/
def Obligations.EmittedFrameDecodesToItsValues : Prop :=
  ∀ (s : State) (n : TxNode) (t : Time) (us vs : List Channel), s.node = .tx n → Legal s.params →
    TxInv s.params n → us.length = s.params.nCh → vs.length = s.params.nCh →
    (∀ v ∈ us ++ vs, s.params.chMin ≤ v.toNat ∧ v.toNat ≤ s.params.chMax) →
    ∃ (u : State) (m : TxNode),
      execAll (edgesAt (fallTimes (frameRows s.params t us) ++
        fallTimes (frameRows s.params (t + BitVec.ofNat 32 s.params.framePeriod) vs))) s = .next u ∧
      u.node = .tx m ∧ m.ch = vs ∧ m.decIdx.toNat = s.params.nCh ∧ m.srcLink = .active

/-- Derived (30_encoding.md section 4, R79; 41_source_supervisor.md section 1, R102(b)): every undisturbed SRC_TICK
leaves the whole of `ch` in the snapshot. Where the last edge is within the threshold and the link is ACTIVE it sends it as
the little-endian payload of R53; where it is not, the link is LOST, with a STATUS record if it was ACTIVE, and nothing
is sent. -/
def Obligations.SourceTickSendsTheFrame : Prop :=
  ∀ (s : State) (n : TxNode) (t : Time), s.node = .tx n → Legal s.params → TxInv s.params n →
    execAll (expandSrcTick s.params t) s = .next
      (if s.params.srcLossThreshold < (t - n.lastEdgeTime).toNat then
        { s with
          node := .tx { n with txBuf := n.ch, srcLink := .lost }
          log := s.log ++ (if n.srcLink = .active then [.status t true] else []) }
      else
        { s with
          node := .tx { n with txBuf := n.ch }
          log := s.log ++ (if n.srcLink = .active then
            [.send t s.params.peerAddr
              (n.ch.flatMap (fun v => [BitVec.ofNat 8 v.toNat, BitVec.ofNat 8 (v.toNat / 256)]))] else []) })

/-- Derived (30_encoding.md section 4, R80; 20_memory.md section 2, R53): the steps of a trace that delivers a payload
reported with the right length accept it whole: each element of `ch` whose two bytes were delivered is their little-endian
value, clamped, `last_rx_time` is the time, and nothing else changes. Bytes beyond the length play no part; the
value stored for a byte that was not delivered is free (MODEL'S CHOICE, log 18). -/
def Obligations.PayloadDeliveryStoresClampedValues : Prop :=
  ∀ (s : State) (n : RxNode) (t : Time) (fresh : Nat) (bytes : List Byte) (rest : List EventWord),
    s.node = .rx n → Legal s.params → RxInv s.params n →
    s.monitor.started = true → s.monitor.window = none → (t - s.monitor.now).toNat < 2 ^ 31 →
    (t = n.tmrDeadline ∨ 2 ^ 31 ≤ (t - n.tmrDeadline).toNat) →
    s.pending = (expand s.params fresh (.rxPayload t (2 * s.params.nCh) bytes)).map encode ++ rest →
    ∃ stored : List Channel,
      core.run (s.params.nCh + 1) s = .next
        { s with
          node := .rx { n with lastRxTime := t, ch := stored }
          monitor := { started := true, now := t, window := none }
          pending := rest } ∧
      stored.length = s.params.nCh ∧
      ∀ (k : Nat) (low high : Byte), k < s.params.nCh → bytes[2 * k]? = some low → bytes[2 * k + 1]? = some high →
        (stored[k]?).map BitVec.toNat =
          some (max s.params.chMin (min s.params.chMax (low.toNat + 256 * high.toNat)))

/-- 20_memory.md section 4 (R61): a snapshot is not atomic: two edges between the loads of elements 0 and 1 leave a
snapshot of an old element 0 beside a new element 1. -/
def Obligations.SnapshotMayMixTwoFrames : Prop :=
  ∀ (s : State) (n : TxNode) (t d0 d1 : Time), s.node = .tx n → Legal s.params → TxInv s.params n →
    2 ≤ s.params.nCh → n.decIdx = 0 → n.lastEdgeTime = t →
    d0.toNat ≤ s.params.syncThreshold → d1.toNat ≤ s.params.syncThreshold →
    ∃ (u : State) (m : TxNode),
      execAll [.srcLd t 0, .decEdge (t + d0), .decEdge (t + d0 + d1), .srcLd (t + d0 + d1) 1] s = .next u ∧
      u.node = .tx m ∧ m.txBuf[0]? = n.ch[0]? ∧ (m.txBuf[1]?).map BitVec.toNat = some d1.toNat ∧
      (m.ch[0]?).map BitVec.toNat = some d0.toNat

/-- Derived (30_encoding.md section 4, R79, R80; 20_memory.md section 2, R53): the primitives of a pseudo-operation, one by
one: the tick's check, loads in ascending order and send, whatever the link; a payload's header, and its stores in
ascending order exactly when the reported length is `PAYLOAD_LEN`, each with the little-endian value of its two bytes
where they were delivered (the value of a byte that was not is free: MODEL'S CHOICE, log 18). -/
def Obligations.PseudoOperationsExpand : Prop :=
  ∀ (p : Params) (fresh : Nat) (t : Time), Legal p →
    ((expand p fresh (.srcTick t)).length = p.nCh + 2 ∧
      (expand p fresh (.srcTick t))[0]? = some (.srcChk t) ∧
      (∀ k < p.nCh, ∃ i : Index, i.toNat = k ∧ (expand p fresh (.srcTick t))[k + 1]? = some (.srcLd t i)) ∧
      (expand p fresh (.srcTick t))[p.nCh + 1]? = some (.srcSend t)) ∧
    ∀ (len : Nat) (bytes : List Byte),
      (∃ field : BitVec 16, field.toNat = min len 65535 ∧
        (expand p fresh (.rxPayload t len bytes))[0]? = some (.rxHdr t field)) ∧
      (len ≠ 2 * p.nCh → (expand p fresh (.rxPayload t len bytes)).length = 1) ∧
      (len = 2 * p.nCh →
        (expand p fresh (.rxPayload t len bytes)).length = p.nCh + 1 ∧
        ∀ k < p.nCh, ∃ (i : Index) (raw : Channel), i.toNat = k ∧
          (expand p fresh (.rxPayload t len bytes))[k + 1]? = some (.rxSt t i raw) ∧
          ∀ low high : Byte, bytes[2 * k]? = some low → bytes[2 * k + 1]? = some high →
            raw.toNat = low.toNat + 256 * high.toNat)

/-- Derived (30_encoding.md section 4, R80; 42_sink_supervisor.md section 1, R110): a payload reported with a wrong length,
whatever bytes it brings, is one step that changes nothing but the trace and what the model remembers of it. -/
def Obligations.WrongLengthPayloadChangesNothing : Prop :=
  ∀ (s : State) (n : RxNode) (t : Time) (fresh len : Nat) (bytes : List Byte) (rest : List EventWord),
    s.node = .rx n → Legal s.params → RxInv s.params n → len ≠ 2 * s.params.nCh →
    s.monitor.started = true → s.monitor.window = none → (t - s.monitor.now).toNat < 2 ^ 31 →
    (t = n.tmrDeadline ∨ 2 ^ 31 ≤ (t - n.tmrDeadline).toNat) →
    s.pending = (expand s.params fresh (.rxPayload t len bytes)).map encode ++ rest →
    step s = .next { s with monitor := { started := true, now := t, window := none }, pending := rest }

/-- Derived (30_encoding.md section 4, R76): a text that begins with a `role` line is about an instance of that role,
whatever follows, and of no other; and the instance has the text's parameters and operations, with its first RESET still to
come. MODEL'S CHOICE, log 30: a text with no `role` line is about an instance of the role it is loaded for. -/
def Obligations.RoleLineSetsTheRole : Prop :=
  (∀ (x : TraceText) (rest : List Char) (openRole : Role) (tx : TxNode) (rx : RxNode),
    (readTrace ("role TX".toList ++ '\n' :: rest) = some x → (x.load openRole tx rx).node = .tx tx) ∧
    (readTrace ("role RX".toList ++ '\n' :: rest) = some x → (x.load openRole tx rx).node = .rx rx)) ∧
  ∀ (x : TraceText) (openRole : Role) (tx : TxNode) (rx : RxNode),
    (x.role = none → (x.load openRole tx rx).role = openRole) ∧
    (x.load openRole tx rx).params = x.params ∧ (x.load openRole tx rx).pending = x.words ∧
    (x.load openRole tx rx).monitor.started = false
end

