-- ==== Sys2Proof/Laws/Decode.lean ====
section
/-! SUPPORT. The fields of an assembled word, and the opcode table read backwards. -/

namespace Sys2Proof.Laws

section Fields
variable (op a : BitVec 8) (v : BitVec 16) (t : Time)

@[simp] theorem opField_assemble : opField (assembleWord op a v t) = op := by
  unfold opField assembleWord
  apply BitVec.eq_of_getLsbD_eq
  intro i hi
  simp only [BitVec.getLsbD_extractLsb', BitVec.getLsbD_append, hi, decide_true, Bool.true_and]
  rw [if_neg (by omega), if_neg (by omega), if_neg (by omega)]
  congr 1
  omega

@[simp] theorem aField_assemble : aField (assembleWord op a v t) = a := by
  unfold aField assembleWord
  apply BitVec.eq_of_getLsbD_eq
  intro i hi
  simp only [BitVec.getLsbD_extractLsb', BitVec.getLsbD_append, hi, decide_true, Bool.true_and]
  rw [if_neg (by omega), if_neg (by omega), if_pos (by omega)]
  congr 1
  omega

@[simp] theorem vField_assemble : vField (assembleWord op a v t) = v := by
  unfold vField assembleWord
  apply BitVec.eq_of_getLsbD_eq
  intro i hi
  simp only [BitVec.getLsbD_extractLsb', BitVec.getLsbD_append, hi, decide_true, Bool.true_and]
  rw [if_neg (by omega), if_pos (by omega)]
  congr 1
  omega

@[simp] theorem tField_assemble : tField (assembleWord op a v t) = t := by
  unfold tField assembleWord
  apply BitVec.eq_of_getLsbD_eq
  intro i hi
  simp only [BitVec.getLsbD_extractLsb', BitVec.getLsbD_append, hi, decide_true, Bool.true_and]
  rw [if_pos (by omega)]
  congr 1
  omega

end Fields

/-- A word is its four fields put together. -/
theorem assemble_fields (w : EventWord) : assembleWord (opField w) (aField w) (vField w) (tField w) = w := by
  unfold assembleWord opField aField vField tField
  apply BitVec.eq_of_getLsbD_eq
  intro i hi
  simp only [BitVec.getLsbD_extractLsb', BitVec.getLsbD_append]
  split
  · next h => simp [h]
  · split
    · next h h' => simp only [show i - 32 < 16 by omega, decide_true, Bool.true_and]; congr 1; omega
    · split
      · next h h' h'' => simp only [show i - 32 - 16 < 8 by omega, decide_true, Bool.true_and]; congr 1; omega
      · next h h' h'' => simp only [show i - 32 - 16 - 8 < 8 by omega, decide_true, Bool.true_and]; congr 1; omega

/-- Each opcode number names its own row. -/
@[simp] theorem ofCode_code (o : Opcode) : Opcode.ofCode? o.code = some o := by cases o <;> decide

/-- A row is found only under its own number. -/
theorem code_of_ofCode {c : BitVec 8} {o : Opcode} (h : Opcode.ofCode? c = some o) : o.code = c := by
  have := List.find?_some h
  simpa using this

end Sys2Proof.Laws
end

