-- ==== Sys2Proof/Laws/Operands.lean ====
section
/-! SUPPORT. The arithmetic of R12 and the element access, as facts about numbers and list positions. -/

namespace Sys2Proof.Laws

open Sys2Proof.Machine

theorem legal_iff {p : Params} : Legal p ↔
    IndexFits p ∧ ChannelBand p ∧ FrameBudget p ∧ SyncFits p ∧ SyncSeparates p ∧ TimesFit p := by
  rw [Legal, legal, decide_eq_true_iff]

theorem txInv_iff {p : Params} {n : TxNode} : TxInv p n ↔
    n.ch.length = p.nCh ∧ n.txBuf.length = p.nCh ∧ n.decIdx.toNat ≤ p.nCh ∧
      allAtMost n.ch (max p.chReset p.syncThreshold) = true := by
  rw [TxInv, txInv, decide_eq_true_iff]

theorem rxInv_iff {p : Params} {n : RxNode} : RxInv p n ↔
    n.ch.length = p.nCh ∧ allAtLeast n.ch p.chMin = true ∧ allAtMost n.ch p.chMax = true ∧
      PhaseInv p n ∧ LevelInv n ∧ n.encSum.toNat ≤ n.encIdx.toNat * p.chMax := by
  rw [RxInv, rxInv, decide_eq_true_iff]

@[simp] theorem exceeds_iff {e : Time} {k : Nat} : exceeds e k = true ↔ k < e.toNat := by simp [exceeds]

theorem micros_toNat {k : Nat} (h : k < 2 ^ 32) : (micros k).toNat = k := by
  rw [micros, BitVec.toNat_ofNat, Nat.mod_eq_of_lt h]

@[simp] theorem zext32_toNat (v : Channel) : (zext32 v).toNat = v.toNat := by
  simp only [zext32, BitVec.toNat_setWidth]
  exact Nat.mod_eq_of_lt (lt_trans v.isLt (by norm_num))

theorem satsub_of_le {a b : Time} (h : b.toNat ≤ a.toNat) : satsub a b = a - b := by simp [satsub, h]

theorem satsub_toNat_of_le {a b : Time} (h : b.toNat ≤ a.toNat) : (satsub a b).toNat = a.toNat - b.toNat := by
  rw [satsub_of_le h, BitVec.toNat_sub_of_le (BitVec.le_def.mpr h)]

theorem add_toNat_of_lt {a b : Time} (h : a.toNat + b.toNat < 2 ^ 32) : (a + b).toNat = a.toNat + b.toNat := by
  rw [BitVec.toNat_add, Nat.mod_eq_of_lt h]

/-- The clamp lands in the band (R12, R40(a)). -/
theorem clamp_band {p : Params} (hl : p.chMin ≤ p.chMax) (hm : p.chMax ≤ 65535) (v : Channel) :
    p.chMin ≤ (clamp p v).toNat ∧ (clamp p v).toNat ≤ p.chMax := by
  unfold clamp
  split
  · rw [BitVec.toNat_ofNat, Nat.mod_eq_of_lt (by omega)]; omega
  · split
    · rw [BitVec.toNat_ofNat, Nat.mod_eq_of_lt (by omega)]; omega
    · omega

@[simp] theorem writeElem_length (xs : List Channel) (i : Index) (v : Channel) :
    (writeElem xs i v).length = xs.length := by simp [writeElem]

theorem writeElem_get {xs : List Channel} {i : Index} {v : Channel} (h : i.toNat < xs.length) :
    (writeElem xs i v)[i.toNat]? = some v := by simp [writeElem, h]

theorem writeElem_get_ne {xs : List Channel} {i : Index} {v : Channel} {k : Nat} (h : k ≠ i.toNat) :
    (writeElem xs i v)[k]? = xs[k]? := by simp [writeElem, List.getElem?_set_ne h.symm]

theorem allAtMost_iff {xs : List Channel} {m : Nat} : allAtMost xs m = true ↔ ∀ v ∈ xs, v.toNat ≤ m := by
  simp [allAtMost]

theorem allAtLeast_iff {xs : List Channel} {m : Nat} : allAtLeast xs m = true ↔ ∀ v ∈ xs, m ≤ v.toNat := by
  simp [allAtLeast]

/-- A write keeps an upper bound that the written value meets. -/
theorem allAtMost_write {xs : List Channel} {m : Nat} {i : Index} {v : Channel} (h : allAtMost xs m = true)
    (hv : v.toNat ≤ m) : allAtMost (writeElem xs i v) m = true := by
  rw [allAtMost_iff] at *
  intro x hx
  rcases List.mem_or_eq_of_mem_set hx with hx | rfl
  · exact h x hx
  · exact hv

/-- A write keeps a lower bound that the written value meets. -/
theorem allAtLeast_write {xs : List Channel} {m : Nat} {i : Index} {v : Channel} (h : allAtLeast xs m = true)
    (hv : m ≤ v.toNat) : allAtLeast (writeElem xs i v) m = true := by
  rw [allAtLeast_iff] at *
  intro x hx
  rcases List.mem_or_eq_of_mem_set hx with hx | rfl
  · exact h x hx
  · exact hv

/-- An element read is within a bound that holds of all. -/
theorem readElem_le {xs : List Channel} {m : Nat} {i : Index} {v : Channel} (h : allAtMost xs m = true)
    (hr : readElem xs i = some v) : v.toNat ≤ m :=
  allAtMost_iff.mp h v (List.mem_of_getElem? hr)

theorem le_readElem {xs : List Channel} {m : Nat} {i : Index} {v : Channel} (h : allAtLeast xs m = true)
    (hr : readElem xs i = some v) : m ≤ v.toNat :=
  allAtLeast_iff.mp h v (List.mem_of_getElem? hr)

/-- Reading below the length answers. -/
theorem readElem_of_lt {xs : List Channel} {i : Index} (h : i.toNat < xs.length) :
    readElem xs i = some xs[i.toNat] := by simp [readElem, h]

@[simp] theorem statusRecord_self (t : Time) (l : LinkState) : statusRecord t l l = [] := by simp [statusRecord]

theorem statusRecord_ne {t : Time} {old new : LinkState} (h : old ≠ new) :
    statusRecord t old new = [.status t new.status] := by simp [statusRecord, h]

end Sys2Proof.Laws
end

