-- ==== Sys2Proof/Laws/State.lean ====
section
/-! SUPPORT. The fields of an updated state, one lemma per field per update. -/

namespace Sys2Proof.Laws

open Sys2Proof.Machine

section PutNode
variable (s : State) (n : Node) (out : List Output)

@[simp] theorem putNode_params : (s.putNode n out).params = s.params := rfl
@[simp] theorem putNode_node : (s.putNode n out).node = n := rfl
@[simp] theorem putNode_monitor : (s.putNode n out).monitor = s.monitor := rfl
@[simp] theorem putNode_pending : (s.putNode n out).pending = s.pending := rfl
@[simp] theorem putNode_log : (s.putNode n out).log = s.log ++ out := rfl
@[simp] theorem putNode_role : (s.putNode n out).role = n.role := rfl

end PutNode

section Accept
variable (s : State) (rest : List EventWord) (m : Monitor)

@[simp] theorem accept_params : (s.accept rest m).params = s.params := rfl
@[simp] theorem accept_node : (s.accept rest m).node = s.node := rfl
@[simp] theorem accept_monitor : (s.accept rest m).monitor = m := rfl
@[simp] theorem accept_pending : (s.accept rest m).pending = rest := rfl
@[simp] theorem accept_log : (s.accept rest m).log = s.log := rfl
@[simp] theorem accept_role : (s.accept rest m).role = s.role := rfl

end Accept

section AfterReset
variable (p : Params) (r : Role) (t : Time)

@[simp] theorem afterReset_params : (State.afterReset p r t).params = p := rfl
@[simp] theorem afterReset_node : (State.afterReset p r t).node = nodeReset p r t := rfl
@[simp] theorem afterReset_monitor :
    (State.afterReset p r t).monitor = { started := true, now := t, window := none } := rfl
@[simp] theorem afterReset_pending : (State.afterReset p r t).pending = [] := rfl
@[simp] theorem afterReset_log : (State.afterReset p r t).log = resetRecords r t := rfl

@[simp] theorem role_nodeReset : (nodeReset p r t).role = r := by cases r <;> rfl

end AfterReset

@[simp] theorem role_tx (n : TxNode) : (Node.tx n).role = .tx := rfl
@[simp] theorem role_rx (n : RxNode) : (Node.rx n).role = .rx := rfl

/-- A TX instance holds a TX node. -/
theorem node_of_role_tx {s : State} (h : s.role = .tx) : ∃ n, s.node = .tx n := by
  cases hn : s.node with
  | tx n => exact ⟨n, rfl⟩
  | rx n => simp [State.role, hn] at h

/-- An RX instance holds an RX node. -/
theorem node_of_role_rx {s : State} (h : s.role = .rx) : ∃ n, s.node = .rx n := by
  cases hn : s.node with
  | rx n => exact ⟨n, rfl⟩
  | tx n => simp [State.role, hn] at h

end Sys2Proof.Laws
end

