-- ==== Sys2Proof/Laws/Ops.lean ====
section
/-! SUPPORT. What taking an event can do, said once: the answer on a state the spec gives a rule for, each refusal,
and what is known when a next state is answered. -/

namespace Sys2Proof.Laws

open Sys2Proof.Machine

theorem finish_next {ν : Type} {wrap : ν → Node} {s t : State} {a : RuleAnswer ν} (h : finish wrap s a = .next t) :
    ∃ m out, a = .ok (m, out) ∧ t = s.putNode (wrap m) out := by
  cases a with
  | error r => cases h
  | ok r => exact ⟨r.1, r.2, rfl, by simpa [finish] using h.symm⟩

/-- On a legal configuration, a well-formed operation of the TX node in a state within R40 is its rule. -/
theorem takeTx_eq {i : Instr} {s : State} {n : TxNode} {rule : Params → TxNode → RuleAnswer TxNode}
    (hn : s.node = .tx n) (hl : Legal s.params) (hw : i.WellFormed s.params.nCh) (hi : TxInv s.params n) :
    takeTx i s rule = finish .tx s (rule s.params n) := by
  simp [takeTx, hn, hl, hw, hi]

/-- On a legal configuration, a well-formed operation of the RX node in a state within R40 is its rule. -/
theorem takeRx_eq {i : Instr} {s : State} {n : RxNode} {rule : Params → RxNode → RuleAnswer RxNode}
    (hn : s.node = .rx n) (hl : Legal s.params) (hw : i.WellFormed s.params.nCh) (hi : RxInv s.params n) :
    takeRx i s rule = finish .rx s (rule s.params n) := by
  simp [takeRx, hn, hl, hw, hi]

/-- Everything that is known when an operation of the TX node answers a next state. -/
theorem takeTx_next {i : Instr} {s t : State} {rule : Params → TxNode → RuleAnswer TxNode}
    (h : takeTx i s rule = .next t) :
    ∃ n m out, s.node = .tx n ∧ Legal s.params ∧ i.WellFormed s.params.nCh ∧ TxInv s.params n ∧
      rule s.params n = .ok (m, out) ∧ t = s.putNode (.tx m) out := by
  by_cases hl : Legal s.params
  · by_cases hw : i.WellFormed s.params.nCh
    · cases hn : s.node with
      | rx n => simp [takeTx, hl, hw, hn] at h
      | tx n =>
        by_cases hi : TxInv s.params n
        · rw [takeTx_eq hn hl hw hi] at h
          obtain ⟨m, out, hr, ht⟩ := finish_next h
          exact ⟨n, m, out, rfl, hl, hw, hi, hr, ht⟩
        · simp [takeTx, hl, hn, hw, hi] at h
    · simp [takeTx, hl, hw] at h
  · simp [takeTx, hl] at h

/-- Everything that is known when an operation of the RX node answers a next state. -/
theorem takeRx_next {i : Instr} {s t : State} {rule : Params → RxNode → RuleAnswer RxNode}
    (h : takeRx i s rule = .next t) :
    ∃ n m out, s.node = .rx n ∧ Legal s.params ∧ i.WellFormed s.params.nCh ∧ RxInv s.params n ∧
      rule s.params n = .ok (m, out) ∧ t = s.putNode (.rx m) out := by
  by_cases hl : Legal s.params
  · by_cases hw : i.WellFormed s.params.nCh
    · cases hn : s.node with
      | tx n => simp [takeRx, hl, hw, hn] at h
      | rx n =>
        by_cases hi : RxInv s.params n
        · rw [takeRx_eq hn hl hw hi] at h
          obtain ⟨m, out, hr, ht⟩ := finish_next h
          exact ⟨n, m, out, rfl, hl, hw, hi, hr, ht⟩
        · simp [takeRx, hl, hn, hw, hi] at h
    · simp [takeRx, hl, hw] at h
  · simp [takeRx, hl] at h

end Sys2Proof.Laws
end

