-- ==== Sys2Proof/Laws/Meanings.lean ====
section
/-! SUPPORT. What each operation can do, said once: if `exec` answers a next state, these are the cases. Later proofs
cite these and do not unfold a meaning. -/

namespace Sys2Proof.Laws

open Sys2Proof.Machine

/-- What is known of the state of any operation of a TX node that answers a next state. -/
abbrev TxTaken (i : Instr) (s : State) (n : TxNode) : Prop :=
  s.node = .tx n ∧ Legal s.params ∧ i.WellFormed s.params.nCh ∧ TxInv s.params n

/-- What is known of the state of any operation of an RX node that answers a next state. -/
abbrev RxTaken (i : Instr) (s : State) (n : RxNode) : Prop :=
  s.node = .rx n ∧ Legal s.params ∧ i.WellFormed s.params.nCh ∧ RxInv s.params n

theorem execDecEdge_next {t : Time} {s s' : State} (h : execDecEdge t s = .next s') :
    ∃ n, TxTaken (.decEdge t) s n ∧
      ((s.params.syncThreshold < (elapsed t n.lastEdgeTime).toNat ∧
          s' = s.putNode (.tx { n with lastEdgeTime := t, decIdx := 0, srcLink := .active })
            (statusRecord t n.srcLink .active)) ∨
        ((elapsed t n.lastEdgeTime).toNat ≤ s.params.syncThreshold ∧ n.decIdx.toNat < s.params.nCh ∧
          s' = s.putNode (.tx { n with
            lastEdgeTime := t
            ch := writeElem n.ch n.decIdx ((elapsed t n.lastEdgeTime).setWidth 16)
            decIdx := n.decIdx + 1 }) []) ∨
        ((elapsed t n.lastEdgeTime).toNat ≤ s.params.syncThreshold ∧ s.params.nCh ≤ n.decIdx.toNat ∧
          s' = s.putNode (.tx { n with lastEdgeTime := t }) [])) := by
  obtain ⟨n, m, out, hn, hl, hw, hi, hr, rfl⟩ := takeTx_next h
  refine ⟨n, ⟨hn, hl, hw, hi⟩, ?_⟩
  simp only [decEdgeRule, exceeds_iff] at hr
  split at hr
  · next hx => obtain ⟨rfl, rfl⟩ := Prod.mk.inj (Except.ok.inj hr); exact .inl ⟨hx, rfl⟩
  · next hx =>
    split at hr
    · next hk => obtain ⟨rfl, rfl⟩ := Prod.mk.inj (Except.ok.inj hr); exact .inr (.inl ⟨not_lt.mp hx, hk, rfl⟩)
    · next hk =>
      obtain ⟨rfl, rfl⟩ := Prod.mk.inj (Except.ok.inj hr)
      exact .inr (.inr ⟨not_lt.mp hx, not_lt.mp hk, rfl⟩)

theorem execSrcChk_next {t : Time} {s s' : State} (h : execSrcChk t s = .next s') :
    ∃ n, TxTaken (.srcChk t) s n ∧
      s' = s.putNode (.tx { n with srcLink := srcLinkChecked s.params t n.lastEdgeTime n.srcLink })
        (statusRecord t n.srcLink (srcLinkChecked s.params t n.lastEdgeTime n.srcLink)) := by
  obtain ⟨n, m, out, hn, hl, hw, hi, hr, rfl⟩ := takeTx_next h
  obtain ⟨rfl, rfl⟩ := Prod.mk.inj (Except.ok.inj hr)
  exact ⟨n, ⟨hn, hl, hw, hi⟩, rfl⟩

theorem execSrcLd_next {t : Time} {k : Index} {s s' : State} (h : execSrcLd t k s = .next s') :
    ∃ n v, TxTaken (.srcLd t k) s n ∧ readElem n.ch k = some v ∧
      s' = s.putNode (.tx { n with txBuf := writeElem n.txBuf k v }) [] := by
  obtain ⟨n, m, out, hn, hl, hw, hi, hr, rfl⟩ := takeTx_next h
  simp only [srcLdRule] at hr
  cases hv : readElem n.ch k with
  | none => simp [hv] at hr
  | some v =>
    simp only [hv] at hr
    obtain ⟨rfl, rfl⟩ := Prod.mk.inj (Except.ok.inj hr)
    exact ⟨n, v, ⟨hn, hl, hw, hi⟩, hv, rfl⟩

theorem execSrcSend_next {t : Time} {s s' : State} (h : execSrcSend t s = .next s') :
    ∃ n, TxTaken (.srcSend t) s n ∧
      ((n.srcLink = .active ∧ s' = s.putNode (.tx n) [.send t s.params.peerAddr (payloadBytes n.txBuf)]) ∨
        (n.srcLink = .lost ∧ s' = s.putNode (.tx n) [])) := by
  obtain ⟨n, m, out, hn, hl, hw, hi, hr, rfl⟩ := takeTx_next h
  refine ⟨n, ⟨hn, hl, hw, hi⟩, ?_⟩
  simp only [srcSendRule] at hr
  cases hk : n.srcLink with
  | active =>
    simp only [hk] at hr
    obtain ⟨rfl, rfl⟩ := Prod.mk.inj (Except.ok.inj hr)
    exact .inl ⟨rfl, rfl⟩
  | lost =>
    simp only [hk] at hr
    obtain ⟨rfl, rfl⟩ := Prod.mk.inj (Except.ok.inj hr)
    exact .inr ⟨rfl, rfl⟩

theorem execRxHdr_next {t : Time} {len : BitVec 16} {s s' : State} (h : execRxHdr t len s = .next s') :
    ∃ n, RxTaken (.rxHdr t len) s n ∧
      ((len.toNat = s.params.payloadLen ∧ s' = s.putNode (.rx { n with lastRxTime := t }) []) ∨
        (len.toNat ≠ s.params.payloadLen ∧ s' = s.putNode (.rx n) [])) := by
  obtain ⟨n, m, out, hn, hl, hw, hi, hr, rfl⟩ := takeRx_next h
  refine ⟨n, ⟨hn, hl, hw, hi⟩, ?_⟩
  simp only [rxHdrRule] at hr
  split at hr
  · next hk => obtain ⟨rfl, rfl⟩ := Prod.mk.inj (Except.ok.inj hr); exact .inl ⟨hk, rfl⟩
  · next hk => obtain ⟨rfl, rfl⟩ := Prod.mk.inj (Except.ok.inj hr); exact .inr ⟨hk, rfl⟩

theorem execRxSt_next {t : Time} {k : Index} {raw : Channel} {s s' : State} (h : execRxSt t k raw s = .next s') :
    ∃ n, RxTaken (.rxSt t k raw) s n ∧
      s' = s.putNode (.rx { n with ch := writeElem n.ch k (clamp s.params raw) }) [] := by
  obtain ⟨n, m, out, hn, hl, hw, hi, hr, rfl⟩ := takeRx_next h
  obtain ⟨rfl, rfl⟩ := Prod.mk.inj (Except.ok.inj hr)
  exact ⟨n, ⟨hn, hl, hw, hi⟩, rfl⟩

theorem execSnkTick_next {t : Time} {s s' : State} (h : execSnkTick t s = .next s') :
    ∃ n, RxTaken (.snkTick t) s n ∧
      s' = s.putNode (.rx { n with snkLink := snkLinkTicked s.params t n.lastRxTime })
        (statusRecord t n.snkLink (snkLinkTicked s.params t n.lastRxTime)) := by
  obtain ⟨n, m, out, hn, hl, hw, hi, hr, rfl⟩ := takeRx_next h
  obtain ⟨rfl, rfl⟩ := Prod.mk.inj (Except.ok.inj hr)
  exact ⟨n, ⟨hn, hl, hw, hi⟩, rfl⟩

/-- The branches of the encoder: which registers hold before, and the segment each starts. -/
theorem encoderBranch_some {p : Params} {n : RxNode} {seg : Segment} (h : encoderBranch p n = some seg) :
    (n.encState = .pulseHigh ∧ ∃ v, readElem n.ch n.encIdx = some v ∧ seg = endChannelPulse p v n) ∨
    (n.encState = .pulseLowChannel ∧ n.encIdx.toNat < p.nCh ∧ seg = startNextPulse p n) ∨
    (n.encState = .pulseLowChannel ∧ n.encIdx.toNat = p.nCh ∧ seg = startMarkerPulse p n) ∨
    (n.encState = .pulseLowSync ∧ seg = startFrameGap p n) ∨
    (n.encState = .frameGap ∧ seg = startFrame p n) := by
  unfold encoderBranch at h
  cases hs : n.encState with
  | pulseHigh =>
    simp only [hs, Option.map_eq_some_iff] at h
    obtain ⟨v, hv, rfl⟩ := h
    exact .inl ⟨rfl, v, hv, rfl⟩
  | pulseLowChannel =>
    simp only [hs] at h
    split at h
    · next hk => exact .inr (.inl ⟨rfl, hk, (Option.some.inj h).symm⟩)
    · split at h
      · next hk => exact .inr (.inr (.inl ⟨rfl, hk, (Option.some.inj h).symm⟩))
      · cases h
  | pulseLowSync =>
    simp only [hs] at h
    exact .inr (.inr (.inr (.inl ⟨rfl, (Option.some.inj h).symm⟩)))
  | frameGap =>
    simp only [hs] at h
    exact .inr (.inr (.inr (.inr ⟨rfl, (Option.some.inj h).symm⟩)))

/-- A state within R40 always has a branch. -/
theorem encoderBranch_isSome {p : Params} {n : RxNode} (h : RxInv p n) : (encoderBranch p n).isSome = true := by
  obtain ⟨hlen, -, -, ⟨hle, hhigh, -, -, -⟩, -, -⟩ := rxInv_iff.mp h
  unfold encoderBranch
  cases hs : n.encState with
  | pulseHigh => simp [readElem_of_lt (hlen ▸ hhigh hs)]
  | pulseLowChannel =>
    by_cases hk : n.encIdx.toNat < p.nCh
    · simp [hk]
    · simp [show n.encIdx.toNat = p.nCh by omega]
  | pulseLowSync => rfl
  | frameGap => rfl

theorem execEncFire_next {t : Time} {s s' : State} (h : execEncFire t s = .next s') :
    ∃ n m d, RxTaken (.encFire t) s n ∧ t = n.tmrDeadline ∧ encoderBranch s.params n = some (m, d) ∧
      s' = s.putNode (.rx { m with tmrDeadline := add32 n.tmrDeadline d }) [.ppm t m.ppmOut] := by
  obtain ⟨n, m, out, hn, hl, hw, hi, hr, rfl⟩ := takeRx_next h
  simp only [encFireRule] at hr
  split at hr
  · next ht =>
    cases hb : encoderBranch s.params n with
    | none => simp [hb] at hr
    | some seg =>
      simp only [hb] at hr
      obtain ⟨rfl, rfl⟩ := Prod.mk.inj (Except.ok.inj hr)
      exact ⟨n, seg.1, seg.2, ⟨hn, hl, hw, hi⟩, ht, hb, rfl⟩
  · cases hr

theorem execReset_next {t : Time} {s s' : State} (h : execReset t s = .next s') :
    Legal s.params ∧ s' = s.putNode (nodeReset s.params s.role t) (resetRecords s.role t) := by
  unfold execReset at h
  split at h
  · cases h
  · next hl => exact ⟨not_not.mp hl, by simpa using h.symm⟩

end Sys2Proof.Laws
end

