-- ==== Sys2Proof/Laws/PerInstr.lean ====
section
/-! SUPPORT. Statements about every operation as syntax, one lemma per constructor. -/

namespace Sys2Proof.Laws

/-- The family `MatchesRow`: the word an operation is encoded as satisfies the mask and match of its own row of
spec/30_encoding.md R73. -/
def MatchesRow.Statement (i : Instr) : Prop := encode i &&& i.opcode.mask = i.opcode.pattern

/-- The mask of a row acts on the four fields one by one. -/
theorem and_assemble (op a op' a' : BitVec 8) (v v' : BitVec 16) (t t' : Time) :
    assembleWord op a v t &&& assembleWord op' a' v' t' = assembleWord (op &&& op') (a &&& a') (v &&& v') (t &&& t') := by
  unfold assembleWord
  rw [BitVec.and_append, BitVec.and_append, BitVec.and_append]

theorem and_ones8 (x : BitVec 8) : x &&& 0xFF = x := by
  rw [show (0xFF : BitVec 8) = BitVec.allOnes 8 by decide, BitVec.and_allOnes]

theorem and_ones16 (x : BitVec 16) : x &&& 0xFFFF = x := by
  rw [show (0xFFFF : BitVec 16) = BitVec.allOnes 16 by decide, BitVec.and_allOnes]

theorem MatchesRow.decEdge (t : Time) : MatchesRow.Statement (.decEdge t) := by
  show assembleWord 0x10 0 0 t &&& assembleWord 0xFF 0xFF 0xFFFF 0 = assembleWord 0x10 0 0 0
  rw [and_assemble]; simp

theorem MatchesRow.srcChk (t : Time) : MatchesRow.Statement (.srcChk t) := by
  show assembleWord 0x11 0 0 t &&& assembleWord 0xFF 0xFF 0xFFFF 0 = assembleWord 0x11 0 0 0
  rw [and_assemble]; simp

theorem MatchesRow.srcLd (t : Time) (i : Index) : MatchesRow.Statement (.srcLd t i) := by
  show assembleWord 0x12 i 0 t &&& assembleWord 0xFF 0 0xFFFF 0 = assembleWord 0x12 0 0 0
  rw [and_assemble]; simp

theorem MatchesRow.srcSend (t : Time) : MatchesRow.Statement (.srcSend t) := by
  show assembleWord 0x13 0 0 t &&& assembleWord 0xFF 0xFF 0xFFFF 0 = assembleWord 0x13 0 0 0
  rw [and_assemble]; simp

theorem MatchesRow.rxHdr (t : Time) (len : BitVec 16) : MatchesRow.Statement (.rxHdr t len) := by
  show assembleWord 0x20 0 len t &&& assembleWord 0xFF 0xFF 0 0 = assembleWord 0x20 0 0 0
  rw [and_assemble]; simp

theorem MatchesRow.rxSt (t : Time) (i : Index) (raw : Channel) : MatchesRow.Statement (.rxSt t i raw) := by
  show assembleWord 0x21 i raw t &&& assembleWord 0xFF 0 0 0 = assembleWord 0x21 0 0 0
  rw [and_assemble]; simp

theorem MatchesRow.snkTick (t : Time) : MatchesRow.Statement (.snkTick t) := by
  show assembleWord 0x22 0 0 t &&& assembleWord 0xFF 0xFF 0xFFFF 0 = assembleWord 0x22 0 0 0
  rw [and_assemble]; simp

theorem MatchesRow.encFire (t : Time) : MatchesRow.Statement (.encFire t) := by
  show assembleWord 0x23 0 0 t &&& assembleWord 0xFF 0xFF 0xFFFF 0 = assembleWord 0x23 0 0 0
  rw [and_assemble]; simp

theorem MatchesRow.reset (t : Time) : MatchesRow.Statement (.reset t) := by
  show assembleWord 0xF0 0 0 t &&& assembleWord 0xFF 0xFF 0xFFFF 0 = assembleWord 0xF0 0 0 0
  rw [and_assemble]; simp

end Sys2Proof.Laws
end

