-- ==== Sys2Proof/Laws/Trace.lean ====
section
/-! SUPPORT. What a step can do, said once: the trace premises it has checked, and the operation it has run. -/

namespace Sys2Proof.Laws

open Sys2Proof.Machine

@[simp] theorem notBefore_iff {t t0 : Time} : notBefore t t0 = true ↔ (t - t0).toNat < 2 ^ 31 := by
  rw [notBefore, decide_eq_true_iff, elapsed]

theorem isAfter_iff {t t0 : Time} : isAfter t t0 = true ↔ (t - t0).toNat < 2 ^ 31 ∧ t ≠ t0 := by
  simp only [isAfter, Bool.and_eq_true, notBefore_iff, bne_iff_ne]

/-- The monitor accepts an operation: it is the first RESET, or a later operation that meets R81(b), (c), (d). -/
theorem observe_ok {p : Params} {n : Node} {m m' : Monitor} {i : Instr} (h : observe p n m i = .ok m') :
    (m.started = false ∧ isReset i = true ∧ m' = { started := true, now := i.time, window := none }) ∨
    (m.started = true ∧ notBefore i.time m.now = true ∧ n.overdue i.time = false ∧
      ∃ w, nextWindow p m.window i = some w ∧ m' = { started := true, now := i.time, window := w }) := by
  unfold observe at h
  cases hs : m.started with
  | true =>
    rw [if_pos hs] at h
    cases hb : notBefore i.time m.now with
    | false => simp [hb] at h
    | true =>
      cases ho : n.overdue i.time with
      | true => simp [hb, ho] at h
      | false =>
        cases hw : nextWindow p m.window i with
        | none => simp [hb, ho, hw] at h
        | some w =>
          simp only [hb, ho, hw, if_true, Bool.false_eq_true, if_false, Except.ok.injEq] at h
          exact .inr ⟨rfl, rfl, rfl, w, rfl, h.symm⟩
  | false =>
    simp only [hs, Bool.false_eq_true, if_false] at h
    split at h
    · next hr => exact .inl ⟨rfl, hr, by simpa using h.symm⟩
    · cases h

/-- A next state of a step is the same state, with no word left, or the answer of the operation the next word
decodes to, on the state with that word consumed. -/
theorem step_next {s t : State} (h : step s = .next t) :
    Legal s.params ∧
    ((s.pending = [] ∧ t = s) ∨
      ∃ w rest i m, s.pending = w :: rest ∧ decodeFor s.params.nCh s.role w = .ok i ∧
        observe s.params s.node s.monitor i = .ok m ∧ exec i (s.accept rest m) = .next t) := by
  unfold step at h
  split at h
  · next hl =>
    refine ⟨hl, ?_⟩
    cases hp : s.pending with
    | nil => simp only [hp] at h; exact .inl ⟨rfl, by simpa using h.symm⟩
    | cons w rest =>
      simp only [hp] at h
      cases hd : decodeFor s.params.nCh s.role w with
      | error why => simp [hd] at h
      | ok i =>
        simp only [hd] at h
        cases ho : observe s.params s.node s.monitor i with
        | error r => simp [ho] at h
        | ok m =>
          simp only [ho] at h
          exact .inr ⟨w, rest, i, m, rfl, hd, ho, h⟩
  · cases h

end Sys2Proof.Laws
end

