-- ==== Sys2Proof/Tests/Slice0.lean ====
section
/-! SUPPORT. Tests: words and results of spec/95_test_vectors.md and spec/96_test_vectors_2.md (cited by vector), and for
every statement that has hypotheses a concrete state and operands that meet them together (theorems `witness_...`,
with boundary values where a statement has several clauses). -/

namespace Sys2Proof.Tests

open Sys2Proof.Machine

/-! ### Small states -/

/-- The next state of an answer. -/
def nextOf (a : Answer) : Option State :=
  match a with
  | .next t => some t
  | .fault _ => none
  | .refused _ => none

/-- The refusal of an answer. -/
def refusalOf (a : Answer) : Option Refusal :=
  match a with
  | .next _ => none
  | .fault _ => none
  | .refused r => some r

theorem next_of_nextOf {a : Answer} {t : State} (h : nextOf a = some t) : a = .next t := by
  cases a with
  | next s => exact congrArg _ (Option.some.inj h)
  | fault f => cases h
  | refused r => cases h

/-- The eight values the vectors use. -/
def values : List Channel := [988, 2012, 1500, 1000, 2000, 1234, 1766, 1500]

/-- A TX node as in vectors V1 and V2. -/
def txSample : TxNode where
  ch := values
  txBuf := List.replicate 8 1500
  decIdx := 0
  lastEdgeTime := 22800
  srcLink := .active

/-- An RX node as in vector V6, row 1. -/
def rxSample : RxNode where
  ch := values
  lastRxTime := 5000
  snkLink := .active
  encState := .frameGap
  encIdx := 0
  encSum := 0
  ppmOut := false
  tmrDeadline := 22500

/-- An instance of the standard configuration with its first RESET past. -/
def inst (n : Node) (now : Time) (window : Option Index) (ws : List EventWord) : State where
  params := Params.standard
  node := n
  monitor := { started := true, now := now, window := window }
  pending := ws
  log := []

/-- A TX instance with nothing to come. -/
def txAt (n : TxNode) : State := inst (.tx n) 22800 none []

/-- An RX instance with nothing to come. -/
def rxAt (n : RxNode) : State := inst (.rx n) 5000 none []

/-- An RX node in the middle of channel 1's pulse (V6, row 4). -/
def rxPulse : RxNode :=
  { rxSample with encState := .pulseHigh, encIdx := 1, encSum := 988, ppmOut := true, tmrDeadline := 1288 }

/-- An RX node in a low period, before channel 1 (V6, row 3). -/
def rxLow : RxNode := { rxSample with encState := .pulseLowChannel, encIdx := 1, encSum := 988, tmrDeadline := 23488 }

/-- An RX node in the low period of the last channel (V6, row 5). -/
def rxLast : RxNode :=
  { rxSample with encState := .pulseLowChannel, encIdx := 8, encSum := 12000, tmrDeadline := 12000 }

/-- An RX node in the marker pulse (V6, row 6). -/
def rxMarker : RxNode :=
  { rxSample with encState := .pulseLowSync, encIdx := 8, encSum := 12000, ppmOut := true, tmrDeadline := 12300 }

/-! ### Well-formed operations -/

theorem test_index_in_range : (Instr.srcLd 100 7).WellFormed 8 ∧ (Instr.rxSt 5000 0 1500).WellFormed 8 := by decide
theorem test_load_index_too_large : ¬ (Instr.srcLd 100 8).WellFormed 8 := by decide
theorem test_store_index_too_large : ¬ (Instr.rxSt 100 255 1500).WellFormed 8 := by decide

/-! ### Decoding (V11, and words of V9, V2, V5) -/

/-- A word laid out as R70's table says, bit positions written out. -/
def bits (op a v t : Nat) : EventWord := BitVec.ofNat 64 (op * 2 ^ 56 + a * 2 ^ 48 + v * 2 ^ 32 + t)

theorem test_decode_decEdge : decodeFor 8 .tx 0x1000000000005CEC = .ok (.decEdge 23788) := by rfl
theorem test_decode_srcChk : decodeFor 8 .tx 0x1100000000016A20 = .ok (.srcChk 92704) := by rfl
theorem test_decode_srcLd : decodeFor 8 .tx 0x1207000000000064 = .ok (.srcLd 100 7) := by rfl
theorem test_decode_srcSend : decodeFor 8 .tx 0x1300000000004E20 = .ok (.srcSend 20000) := by rfl
theorem test_decode_rxHdr : decodeFor 8 .rx 0x2000001000001388 = .ok (.rxHdr 5000 16) := by rfl
theorem test_decode_rxSt : decodeFor 8 .rx 0x21010BB800001388 = .ok (.rxSt 5000 1 3000) := by rfl
theorem test_decode_snkTick : decodeFor 8 .rx 0x2200000000019A28 = .ok (.snkTick 105000) := by rfl
theorem test_decode_encFire : decodeFor 8 .rx 0x23000000000057E4 = .ok (.encFire 22500) := by rfl
theorem test_decode_reset : decodeFor 8 .tx 0xF0000000FFFFFC18 = .ok (.reset 4294966296) ∧
    decodeFor 8 .rx 0xF0000000FFFFFC18 = .ok (.reset 4294966296) := ⟨rfl, rfl⟩
theorem test_decode_fields : bits 0x21 1 0x0BB8 0x1388 = 0x21010BB800001388 := by decide

theorem test_refuse_opcode : decodeFor 8 .tx 0 = .error .badOpcode ∧
    decodeFor 8 .rx 0xFFFFFFFFFFFFFFFF = .error .badOpcode ∧ decodeFor 8 .tx 0x1400000000000000 = .error .badOpcode ∧
    decodeFor 8 .rx 0x2400000000000000 = .error .badOpcode := ⟨rfl, rfl, rfl, rfl⟩
theorem test_refuse_reserved : decodeFor 8 .tx 0x1001000000000064 = .error .badReservedField ∧
    decodeFor 8 .tx 0x1000000100000064 = .error .badReservedField ∧
    decodeFor 8 .tx 0x1200000100000064 = .error .badReservedField ∧
    decodeFor 8 .rx 0x2001001000000064 = .error .badReservedField ∧
    decodeFor 8 .rx 0xF001000000000000 = .error .badReservedField := ⟨rfl, rfl, rfl, rfl, rfl⟩
theorem test_refuse_index : decodeFor 8 .tx 0x1208000000000064 = .error .badIndex ∧
    decodeFor 8 .rx 0x21FF05DC00000064 = .error .badIndex := ⟨rfl, rfl⟩
theorem test_refuse_role : decodeFor 8 .tx 0x2300000000000000 = .error .wrongRole ∧
    decodeFor 8 .rx 0x1000000000000064 = .error .wrongRole := ⟨rfl, rfl⟩

/-- R83's worked bytes (V11). -/
theorem test_serialise : serialise [0x1000000000005CEC] = [0xEC, 0x5C, 0, 0, 0, 0, 0, 0x10] := by decide
theorem test_short_input : decodeBytes 8 [0xEC, 0x5C] = .error .shortInput := by rfl

/-! ### Text (R76) -/

theorem test_read_line : readLine "RX_ST @5000, 0x01, 3000 ; clamped".toList = some (.op (.rxSt 5000 1 3000)) := by
  decide +kernel
theorem test_read_payload : readLine "RX_PAYLOAD @100, 3, [84 03 FF]".toList =
    some (.pseudo (.rxPayload 100 3 [0x84, 0x03, 0xFF])) := by decide +kernel

/-- A `role` line sets the role, whatever role the text is loaded for (R76). -/
theorem test_role_line :
    (readTrace "role RX\nparam N_CH = 4\n\nRESET @0 ; start".toList).map
      (fun x => (x.role, x.params.nCh, x.words, (x.load .tx txSample rxSample).node)) =
      some (some .rx, 4, [0xF000000000000000], .rx rxSample) := by decide +kernel
/-- A text with no `role` line, loaded for either role (log 30). -/
theorem test_no_role_line :
    (readTrace "SRC_CHK @7".toList).map (fun x => (x.role, x.words)) = some (none, [0x1100000000000007]) ∧
    (readTrace "SRC_CHK @7".toList).map (fun x => (x.load .rx txSample rxSample).node) = some (.rx rxSample) := by
  decide +kernel
/-- The widest operands are read, wider ones are not (log 31); an index beyond the channels is left to the decoder. -/
theorem test_operand_width :
    readLine "RX_ST @4294967295, 255, 65535".toList = some (.op (.rxSt 4294967295 255 65535)) ∧
    readLine "SRC_CHK @4294967296".toList = none ∧ readLine "SRC_LD @0, 256".toList = none ∧
    readLine "RX_ST @0, 0, 65536".toList = none ∧
    readLine "RX_HDR @0, 65536".toList = some (.op (.rxHdr 0 65535)) := by decide +kernel
theorem test_role_line_late : readTrace "RESET @0\nrole RX".toList = none := by decide +kernel
theorem witness_RoleLineSetsTheRole :
    (readTrace ("role TX".toList ++ '\n' :: "RESET @0".toList)).isSome = true ∧
    (readTrace ("role RX".toList ++ '\n' :: "RESET @0".toList)).isSome = true ∧ TraceText.start.role = none := by
  decide +kernel

/-! ### The operations -/

/-- V1: interval 988 is stored. -/
theorem test_decEdge_channel : (nextOf (exec (.decEdge 23788) (txAt { txSample with ch := List.replicate 8 1500 }))).map
    State.node = some (.tx { txSample with
      ch := [988, 1500, 1500, 1500, 1500, 1500, 1500, 1500], decIdx := 1, lastEdgeTime := 23788 }) := by decide +kernel
/-- R90(a): 3000 is a channel pulse, 3001 a sync gap, which clears LOST at once. -/
theorem test_decEdge_strict :
    (nextOf (exec (.decEdge 25800) (txAt { txSample with srcLink := .lost }))).map State.log = some [] ∧
    (nextOf (exec (.decEdge 25801) (txAt { txSample with srcLink := .lost, decIdx := 5 }))) =
      some { txAt { txSample with lastEdgeTime := 25801 } with log := [.status 25801 false] } := by decide +kernel
/-- R100's worked example. -/
theorem test_srcChk_strict :
    (nextOf (exec (.srcChk 134800) (txAt { txSample with lastEdgeTime := 34800 }))).map State.log = some [] ∧
    (nextOf (exec (.srcChk 134801) (txAt { txSample with lastEdgeTime := 34800 }))).map State.log =
      some [.status 134801 true] := by decide +kernel
/-- R101's worked example. -/
theorem test_srcLd : (nextOf (exec (.srcLd 40000 3) (txAt txSample))).map State.node =
    some (.tx { txSample with txBuf := [1500, 1500, 1500, 1000, 1500, 1500, 1500, 1500] }) := by decide +kernel
/-- P2, row 20: the payload, low byte first. -/
theorem test_srcSend : (nextOf (exec (.srcSend 20000) (txAt { txSample with txBuf := values }))).map State.log =
    some [.send 20000 0 [0xDC, 0x03, 0xDC, 0x07, 0xDC, 0x05, 0xE8, 0x03, 0xD0, 0x07, 0xD2, 0x04, 0xE6, 0x06,
      0xDC, 0x05]] := by decide +kernel
theorem test_srcSend_lost : nextOf (exec (.srcSend 20000) (txAt { txSample with srcLink := .lost })) =
    some (txAt { txSample with srcLink := .lost }) := by decide +kernel
/-- R110's worked example. -/
theorem test_rxHdr :
    (nextOf (exec (.rxHdr 5000 16) (rxAt { rxSample with lastRxTime := 0 }))).map State.node = some (.rx rxSample) ∧
    nextOf (exec (.rxHdr 6000 15) (rxAt rxSample)) = some (rxAt rxSample) := by decide +kernel
/-- V5: clamping, unsigned. -/
theorem test_rxSt_clamps :
    (nextOf (exec (.rxSt 5000 1 3000) (rxAt { rxSample with ch := List.replicate 8 1500 }))).map State.node =
      some (.rx { rxSample with ch := [1500, 2012, 1500, 1500, 1500, 1500, 1500, 1500] }) ∧
    clamp Params.standard 987 = 988 ∧ clamp Params.standard 32768 = 2012 := by decide +kernel
/-- R112's worked example. -/
theorem test_snkTick_strict :
    (nextOf (exec (.snkTick 105000) (rxAt rxSample))).map State.log = some [] ∧
    (nextOf (exec (.snkTick 105001) (rxAt rxSample))) =
      some { rxAt { rxSample with snkLink := .lost } with log := [.status 105001 true] } := by decide +kernel
/-- V6, rows 1, 3, 5. -/
theorem test_encFire_pulses :
    (nextOf (exec (.encFire 22500) (rxAt rxSample))).map State.node =
      some (.rx { rxSample with encState := .pulseHigh, ppmOut := true, tmrDeadline := 22800 }) ∧
    (nextOf (exec (.encFire 23488) (rxAt rxLow))).map State.node =
      some (.rx { rxLow with encState := .pulseHigh, ppmOut := true, tmrDeadline := 23788 }) ∧
    (nextOf (exec (.encFire 12000) (rxAt rxLast))).map State.node =
      some (.rx { rxLast with encState := .pulseLowSync, ppmOut := true, tmrDeadline := 12300 }) := by decide +kernel
/-- V6, rows 4 and 6. -/
theorem test_encFire_lows :
    (nextOf (exec (.encFire 1288) (rxAt rxPulse))).map State.node =
      some (.rx { rxPulse with
        encState := .pulseLowChannel, ppmOut := false, encIdx := 2, encSum := 3000, tmrDeadline := 3000 }) ∧
    (nextOf (exec (.encFire 12300) (rxAt rxMarker))).map State.node = some (.rx rxSample) := by decide +kernel
/-- V12: RESET of an RX node in the middle of a frame. -/
theorem test_reset_rx :
    (nextOf (exec (.reset 4600) (rxAt rxPulse))).map (fun t => (t.node, t.log)) =
      some (.rx { rxPulse with
        ch := List.replicate 8 1500, lastRxTime := 4600, snkLink := .lost, encState := .frameGap, encIdx := 0,
        encSum := 0, ppmOut := false, tmrDeadline := 4600 }, [.ppm 4600 false, .status 4600 true]) := by decide +kernel
/-- V12: RESET of a TX node in a state no run reaches. -/
theorem test_reset_tx :
    (nextOf (exec (.reset 777) (txAt { txSample with ch := [], decIdx := 200 }))).map (fun t => (t.node, t.log)) =
      some (.tx { txSample with
        ch := List.replicate 8 1500, txBuf := List.replicate 8 1500, decIdx := 8, lastEdgeTime := 777,
        srcLink := .lost }, [.status 777 true]) := by decide +kernel

/-- V10: the arithmetic. -/
theorem test_arithmetic : elapsed 3000 4294966296 = 4000 ∧ elapsed 5 10 = 4294967291 ∧ satsub 299 300 = 0 ∧
    satsub 22500 524580 = 0 ∧ satsub 22500 12300 = 10200 ∧ add32 4294966596 1200 = 500 ∧ le16 4660 = [0x34, 0x12] ∧
    fromLe16 0x34 0x12 = 4660 ∧ exceeds 3000 3000 = false ∧ exceeds 4294967295 100000 = true := by decide

/-! ### Traces (V11) -/

theorem test_first_is_reset : refusalOf (step (State.beforeReset Params.standard (.tx txSample) [0x1000000000000064])) =
    some .firstIsReset := by decide +kernel
theorem test_time_order : refusalOf (step (inst (.tx (txReset Params.standard 1000)) 1000 none [0x10000000000001F4])) =
    some .timeOrder := by decide +kernel
theorem test_timer_exact : refusalOf (step (inst (.rx { rxSample with tmrDeadline := 300 }) 0 none
    [0x220000000000012D])) = some .timerExact := by decide +kernel
theorem test_equal_times : (nextOf (step (inst (.rx { rxSample with tmrDeadline := 300 }) 0 none
    [0x220000000000012C]))).isSome = true := by decide +kernel
theorem test_store_outside_payload : refusalOf (step (inst (.rx rxSample) 0 none [0x210005DC0000000A])) =
    some .rxStInPayload := by decide +kernel

/-! ### Witnesses: event words and the step -/

theorem witness_DecodeOfEncodeIsTheOperation :
    (Instr.rxSt 4294967295 7 65535).WellFormed 8 ∧ (Instr.srcLd 0 0).WellFormed 1 := by decide
theorem witness_DecodedWordIsTheEncoding : decodeWord 8 0x2107FFFF00000064 = .ok (.rxSt 100 7 65535) := by rfl

/-- A header that opens the window, in time, before the deadline. -/
theorem witness_StepRunsDecodedOperation :
    let s := inst (.rx rxSample) 5000 none [0x2000001000001388, 5]
    Legal s.params ∧ s.pending = 0x2000001000001388 :: [5] ∧
    decodeFor s.params.nCh s.role 0x2000001000001388 = .ok (.rxHdr 5000 16) ∧ s.monitor.started = true ∧
    ((5000 : Time) - s.monitor.now).toNat < 2 ^ 31 ∧
    (∀ n, s.node = .rx n → (5000 : Time) = n.tmrDeadline ∨ 2 ^ 31 ≤ ((5000 : Time) - n.tmrDeadline).toNat) ∧
    nextWindow s.params s.monitor.window (.rxHdr 5000 16) = some (some 0) := by
  refine ⟨by decide, rfl, rfl, rfl, by decide, ?_, by decide⟩
  intro n h
  cases h
  decide

/-- Both clauses: a first operation that is not RESET, and one that is. -/
theorem witness_FirstOperationIsReset :
    let s := State.beforeReset Params.standard (.rx { rxSample with ch := [] }) [0x2200000000000064]
    let s' := State.beforeReset Params.standard (.rx { rxSample with ch := [] }) [0xF000000000000309]
    (Legal s.params ∧ s.pending = 0x2200000000000064 :: [] ∧
      decodeFor s.params.nCh s.role 0x2200000000000064 = .ok (.snkTick 100) ∧ s.monitor.started = false) ∧
    (Legal s'.params ∧ s'.pending = 0xF000000000000309 :: [] ∧
      decodeFor s'.params.nCh s'.role 0xF000000000000309 = .ok (.reset 777) ∧ s'.monitor.started = false) :=
  ⟨⟨by decide, rfl, rfl, rfl⟩, by decide, rfl, rfl, rfl⟩

/-- (e) a word of the other role; (a) a first operation that is not RESET; (b) exactly 2^31 earlier. -/
theorem witness_IllFormedTraces_word_reset_time :
    (Legal (txAt txSample).params ∧ decodeFor 8 (txAt txSample).role 0x2300000000000000 = .error .wrongRole) ∧
    (decodeFor 8 .tx 0x1000000000000064 = .ok (.decEdge 100) ∧
      (State.beforeReset Params.standard (.tx txSample) [0x1000000000000064]).monitor.started = false) ∧
    (decodeFor 8 .tx 0x1000000080000000 = .ok (.decEdge 0x80000000) ∧
      2 ^ 31 ≤ (((0x80000000 : Time) - (inst (.tx txSample) 0 none [0x1000000080000000]).monitor.now).toNat)) :=
  ⟨⟨by decide, rfl⟩, ⟨rfl, rfl⟩, rfl, by decide⟩

/-- (c) one microsecond after the deadline, and an ENC_FIRE one before it; (d) a store with the window shut, and one
at an index the window is not at, at the deadline itself. -/
theorem witness_IllFormedTraces_timer_store :
    let s := inst (.rx rxSample) 5000 none []
    let s' := inst (.rx { rxSample with tmrDeadline := 5000 }) 5000 (some 1) []
    ((22501 : Time) ≠ rxSample.tmrDeadline ∧ ((22501 : Time) - rxSample.tmrDeadline).toNat < 2 ^ 31 ∧
      ((22501 : Time) - s.monitor.now).toNat < 2 ^ 31) ∧
    (RxInv s.params rxSample ∧ (22499 : Time) ≠ rxSample.tmrDeadline ∧
      ((22499 : Time) - s.monitor.now).toNat < 2 ^ 31) ∧
    (s.monitor.window ≠ some 0 ∧ 2 ^ 31 ≤ ((5000 : Time) - rxSample.tmrDeadline).toNat) ∧
    (s'.monitor.window ≠ some 0 ∧ s'.monitor.window ≠ some 2) := by
  refine ⟨?_, ?_, ?_, ?_⟩ <;> decide

theorem witness_PayloadWindowFollowsTheExpansion :
    Legal Params.standard ∧ (6 : Index).toNat + 1 < Params.standard.nCh ∧ (7 : Index).toNat + 1 = Params.standard.nCh ∧
    nextWindow Params.standard none (.rxHdr 0 16) = some (some 0) ∧
    nextWindow Params.standard none (.rxHdr 0 15) = some none := by decide
theorem witness_StepWithoutEventChangesNothing : Legal State.reset.params ∧ State.reset.pending = [] :=
  ⟨by decide, rfl⟩

theorem reset_inv : State.reset.Inv := ⟨by decide, by show txInv _ _ = true; decide⟩

theorem witness_PlacedWordIsRunByTheNextStep :
    State.reset.Inv ∧ (Instr.encFire 700).WellFormed State.reset.params.nCh := ⟨reset_inv, by decide⟩

/-- One configuration that breaks each constraint of R9 in turn, and two that just meet (c) and (e). -/
theorem witness_IllegalConfigurationsAreRefused :
    ¬ Legal { Params.standard with nCh := 0 } ∧ ¬ Legal { Params.standard with pulseWidth := 989 } ∧
    ¬ Legal { Params.standard with framePeriod := 16395, syncThreshold := 2012 } ∧
    ¬ Legal { Params.standard with syncThreshold := 65536 } ∧ ¬ Legal { Params.standard with framePeriod := 19096 } ∧
    ¬ Legal { Params.standard with tickPeriod := 2 ^ 31 } ∧ Legal { Params.standard with framePeriod := 19097 } ∧
    Legal { Params.standard with syncThreshold := 2012 } := by decide

/-- `PULSE_HIGH` at index `N_CH` (R133), and a decoder index beyond `N_CH`. -/
theorem witness_UnreachableStatesAreRefused :
    (Legal Params.standard ∧ (Instr.snkTick 6000).WellFormed 8 ∧
      ¬ RxInv Params.standard { rxPulse with encIdx := 8 }) ∧
    ((Instr.srcLd 0 7).WellFormed 8 ∧ ¬ TxInv Params.standard { txSample with decIdx := 9 }) := by decide

theorem witness_StepsCompleteUnlessTheTraceIsIllFormed :
    let s := inst (.rx rxSample) 5000 none [0x23000000000057E4]
    s.Inv ∧ decodeFor s.params.nCh s.role 0x23000000000057E4 = .ok (.encFire 22500) ∧
    observe s.params s.node s.monitor (.encFire 22500) =
      .ok { started := true, now := 22500, window := none } ∧
    ∀ n t, s.node = .rx n → Instr.encFire 22500 = .encFire t → t = n.tmrDeadline := by
  refine ⟨⟨by decide, by show rxInv _ _ = true; decide⟩, rfl, rfl, ?_⟩
  intro n t h h'
  cases h
  cases h'
  rfl

theorem witness_RolesAreDisjoint :
    Legal (txAt txSample).params ∧ (Instr.encFire 0).role? = some .rx ∧ Role.rx ≠ (txAt txSample).role ∧
    (Instr.decEdge 0).role? = some .tx ∧ Role.tx ≠ (rxAt rxSample).role ∧
    (Instr.srcLd 0 7).WellFormed 8 ∧ ¬ (Instr.srcLd 0 8).WellFormed 8 := by decide

/-! ### Witnesses: the operations -/

/-- The hypotheses every statement about an operation of the TX node shares; the last three values of the index and
the interval are where the branches of R90 meet. -/
theorem witness_tx_operations :
    (txAt txSample).node = .tx txSample ∧ Legal (txAt txSample).params ∧ TxInv (txAt txSample).params txSample ∧
    TxInv (txAt txSample).params { txSample with decIdx := 7 } ∧
    TxInv (txAt txSample).params { txSample with decIdx := 8 } ∧
    ((25800 : Time) - txSample.lastEdgeTime).toNat = 3000 := by decide
theorem witness_SrcLdCopiesOneElement : (7 : Index).toNat < (txAt txSample).params.nCh := by decide
theorem witness_SyncEdgeClearsLossAtOnce :
    TxInv Params.standard { txSample with srcLink := .lost } ∧
    Params.standard.syncThreshold < ((25801 : Time) - txSample.lastEdgeTime).toNat := by decide

/-- The hypotheses every statement about an operation of the RX node shares, in each phase of the encoder. -/
theorem witness_rx_operations :
    (rxAt rxSample).node = .rx rxSample ∧ Legal (rxAt rxSample).params ∧ RxInv (rxAt rxSample).params rxSample ∧
    RxInv Params.standard rxPulse ∧ RxInv Params.standard rxLow ∧ RxInv Params.standard rxLast ∧
    RxInv Params.standard rxMarker := by decide
theorem witness_RxStStoresClamped : (7 : Index).toNat < (rxAt rxSample).params.nCh := by decide
theorem witness_EncFire_branches :
    rxPulse.encState = .pulseHigh ∧ (rxLow.encState = .pulseLowChannel ∧ rxLow.encIdx.toNat < 8) ∧
    (rxLast.encState = .pulseLowChannel ∧ rxLast.encIdx.toNat = 8) ∧ rxMarker.encState = .pulseLowSync ∧
    rxSample.encState = .frameGap := by decide
theorem witness_ResetWritesEveryRegister : Legal (txAt txSample).params ∧ Legal (rxAt rxSample).params := by decide

/-! ### Witnesses: every operation, reset, invariants -/

theorem witness_ConfigurationIsNeverWritten :
    ∃ t, exec (.encFire 22500) (rxAt rxSample) = .next t :=
  ⟨_, next_of_nextOf (t := { rxAt { rxSample with encState := .pulseHigh, ppmOut := true, tmrDeadline := 22800 } with
    log := [.ppm 22500 true] }) (by decide +kernel)⟩

/-- An element, the index and the time of the last edge change. -/
theorem witness_TxRegisters_edge :
    ∃ t m, exec (.decEdge 24300) (txAt txSample) = .next t ∧ t.node = .tx m ∧ m.ch[0]? ≠ txSample.ch[0]? ∧
      m.decIdx ≠ txSample.decIdx ∧ m.lastEdgeTime ≠ txSample.lastEdgeTime :=
  ⟨txAt { txSample with ch := [1500, 2012, 1500, 1000, 2000, 1234, 1766, 1500], decIdx := 1, lastEdgeTime := 24300 }, _,
    next_of_nextOf (by decide +kernel), rfl, by decide, by decide, by decide⟩
/-- The link is lost, and regained. -/
theorem witness_TxRegisters_link :
    (nextOf (exec (.srcChk 122801) (txAt txSample))).map (fun t => t.node.link) = some .lost ∧
    (nextOf (exec (.decEdge 25801) (txAt { txSample with srcLink := .lost }))).map (fun t => t.node.link) =
      some .active ∧
    (nextOf (exec (.srcLd 30000 0) (txAt txSample))).map State.node ≠ some (.tx txSample) := by decide +kernel
theorem witness_RxRegisters :
    (nextOf (exec (.rxSt 5000 1 988) (rxAt rxSample))).map State.node ≠ some (.rx rxSample) ∧
    (nextOf (exec (.rxHdr 6000 16) (rxAt rxSample))).map State.node ≠ some (.rx rxSample) ∧
    (nextOf (exec (.snkTick 105001) (rxAt rxSample))).map State.node ≠ some (.rx rxSample) ∧
    (nextOf (exec (.encFire 22500) (rxAt rxSample))).map State.node ≠ some (.rx rxSample) := by decide +kernel

/-- Two nodes that differ in the sink supervisor's registers, and two that differ in the encoder's. -/
theorem witness_EncoderAndSinkSupervisorAreIndependent :
    let other := { rxSample with lastRxTime := 9, snkLink := .lost }
    (other = { rxSample with lastRxTime := other.lastRxTime, snkLink := other.snkLink } ∧
      (nextOf (exec (.encFire 22500) (rxAt rxSample))).isSome = true ∧
      (nextOf (exec (.encFire 22500) (rxAt other))).isSome = true) ∧
    (rxPulse.ch = rxSample.ch ∧ rxPulse.lastRxTime = rxSample.lastRxTime ∧ rxPulse.snkLink = rxSample.snkLink ∧
      (nextOf (exec (.snkTick 6000) (rxAt rxSample))).isSome = true ∧
      (nextOf (exec (.snkTick 6000) (rxAt rxPulse))).isSome = true) := by decide +kernel

/-- The link changes, by an operation other than RESET and by RESET. -/
theorem witness_StatusFollowsTheLink :
    (nextOf (exec (.snkTick 105001) (rxAt rxSample))).map (fun t => t.node.link) ≠ some (rxAt rxSample).node.link ∧
    (nextOf (exec (.reset 9) (rxAt rxSample))).map (fun t => t.node.link) ≠ some (rxAt rxSample).node.link := by
  decide +kernel
theorem witness_RecordsOfAnOperation :
    (nextOf (exec (.srcSend 20000) (txAt txSample))).map (fun t => t.log.length) = some 1 ∧
    (nextOf (exec (.encFire 22500) (rxAt rxSample))).map (fun t => t.log.length) = some 1 := by decide +kernel
theorem witness_ResetValuesByRegister :
    Legal Params.standard ∧ Legal { Params.standard with encStartDelay := 2 ^ 31 - 1 } ∧
    decodeFor 8 .rx 0x2200000000000064 = .ok (.snkTick 100) ∧
    (State.beforeReset Params.standard (.rx rxSample) [0x2200000000000064]).monitor.started = false :=
  ⟨by decide, by decide, rfl, rfl⟩
theorem witness_ArithmeticPrimitivesAreExact : Legal Params.standard := by decide

/-- An instance within R40 whose window is open at the last index, its timer due now, and the store that shuts it. -/
theorem witness_EveryStepKeeps :
    let s := inst (.rx { rxSample with tmrDeadline := 5000 }) 5000 (some 7) [0x2107FFFF00001388]
    s.Inv ∧ s.TimerAhead ∧ s.WindowInv ∧
      (nextOf (step s)).map (fun t => (t.monitor.window, t.pending)) = some (none, []) := by
  refine ⟨⟨by decide, by show rxInv _ _ = true; decide⟩, ?_, ?_, by decide +kernel⟩
  · intro n h
    cases h
    decide
  · intro k h
    cases h
    decide

/-! ### Witnesses: what the operations add up to -/

/-- A gap of 3001, then intervals of 3000, 0 and 988. -/
theorem witness_DecodedFrameEqualsItsIntervals :
    TxInv (txAt txSample).params txSample ∧ 3000 < ((25801 : Time) - txSample.lastEdgeTime).toNat ∧
    ∀ d ∈ ([3000, 0, 988] : List Time), d.toNat ≤ (txAt txSample).params.syncThreshold :=
  ⟨by decide, by decide, by simp [txAt, inst, Params.standard]⟩
theorem witness_FrameStatements : RxInv (rxAt rxSample).params rxSample ∧ rxSample.encState = .frameGap := by decide
/-- The ENC_FIRE that ends the gap answers a next state, and so does a payload's header in mid-frame. -/
theorem witness_FrameStartMovesByOnePeriod :
    (nextOf (exec (.encFire 22500) (rxAt rxSample))).isSome = true ∧
    (nextOf (exec (.rxHdr 1000 16) (rxAt rxPulse))).isSome = true := by decide +kernel
theorem witness_EmittedFrameDecodesToItsValues :
    values.length = 8 ∧ ∀ v ∈ values ++ List.replicate 8 2012, 988 ≤ v.toNat ∧ v.toNat ≤ 2012 :=
  ⟨rfl, by simp [values]⟩
/-- The elapsed time at the threshold, and one above it. -/
theorem witness_SourceTickSendsTheFrame :
    (txAt txSample).node = .tx txSample ∧ Legal (txAt txSample).params ∧ TxInv (txAt txSample).params txSample ∧
    ((122800 : Time) - txSample.lastEdgeTime).toNat = (txAt txSample).params.srcLossThreshold ∧
    (txAt txSample).params.srcLossThreshold < ((122801 : Time) - txSample.lastEdgeTime).toNat := by decide

/-- P1's payload, and the instance it is delivered to at the timer's deadline. -/
def p1Bytes : List Byte :=
  [0x84, 0x03, 0x34, 0x08, 0xDC, 0x05, 0xE8, 0x03, 0xD0, 0x07, 0xD2, 0x04, 0xE6, 0x06, 0xFF, 0xFF]

theorem witness_PayloadDeliveryStoresClampedValues :
    let s := inst (.rx rxSample) 22500 none ((expand Params.standard 0 (.rxPayload 22500 (2 * 8) p1Bytes)).map encode ++ [5])
    s.node = .rx rxSample ∧ Legal s.params ∧ RxInv s.params rxSample ∧ s.monitor.started = true ∧
    s.monitor.window = none ∧ ((22500 : Time) - s.monitor.now).toNat < 2 ^ 31 ∧ (22500 : Time) = rxSample.tmrDeadline ∧
    s.pending = (expand s.params 0 (.rxPayload 22500 (2 * s.params.nCh) p1Bytes)).map encode ++ [5] ∧
    p1Bytes[2 * 7]? = some 0xFF ∧ p1Bytes[2 * 7 + 1]? = some 0xFF :=
  ⟨rfl, by decide, by decide, rfl, rfl, by decide, by decide, rfl, rfl, rfl⟩

/-- V5's expansion, with two bytes more than the length that play no part. -/
theorem test_expand_payload :
    expand Params.standard 0 (.rxPayload 100 16 (p1Bytes ++ [1, 2])) =
      [.rxHdr 100 16, .rxSt 100 0 900, .rxSt 100 1 2100, .rxSt 100 2 1500, .rxSt 100 3 1000, .rxSt 100 4 2000,
        .rxSt 100 5 1234, .rxSt 100 6 1766, .rxSt 100 7 65535] := by decide +kernel
theorem test_expand_wrong_length :
    expand Params.standard 0 (.rxPayload 100 15 (p1Bytes.take 15)) = [.rxHdr 100 15] := by decide
/-- A right length and a wrong one, at the most channels and the longest length (V5, R72). -/
theorem witness_PseudoOperationsExpand :
    Legal Params.standard ∧ 16 = 2 * Params.standard.nCh ∧ 15 ≠ 2 * Params.standard.nCh ∧
    70000 ≠ 2 * Params.standard.nCh ∧ lengthField 70000 = 65535 := by decide
theorem witness_WrongLengthPayloadChangesNothing :
    let s := inst (.rx rxSample) 6000 none ((expand Params.standard 0 (.rxPayload 6000 17 p1Bytes)).map encode ++ [5])
    s.node = .rx rxSample ∧ Legal s.params ∧ RxInv s.params rxSample ∧ 17 ≠ 2 * s.params.nCh ∧
    s.monitor.started = true ∧ s.monitor.window = none ∧ ((6000 : Time) - s.monitor.now).toNat < 2 ^ 31 ∧
    2 ^ 31 ≤ ((6000 : Time) - rxSample.tmrDeadline).toNat ∧
    s.pending = (expand s.params 0 (.rxPayload 6000 17 p1Bytes)).map encode ++ [5] :=
  ⟨rfl, by decide, by decide, by decide, rfl, rfl, by decide, by decide, rfl⟩
theorem witness_SnapshotMayMixTwoFrames :
    TxInv Params.standard txSample ∧ 2 ≤ Params.standard.nCh ∧ txSample.decIdx = 0 ∧ txSample.lastEdgeTime = 22800 ∧
    (1100 : Time).toNat ≤ Params.standard.syncThreshold ∧ (3000 : Time).toNat ≤ Params.standard.syncThreshold := by
  decide

end Sys2Proof.Tests
end

section
/-! PROOFS. The constraints on a configuration and its refusal (spec/00_scope.md R8, R9; log 11). -/

namespace Sys2Proof.Proofs

open Sys2Proof.Machine Sys2Proof.Laws

/-- R9(e) without subtraction: a difference in `Nat` above the threshold cannot be a saturated one. -/
theorem syncSeparates_iff {p : Params} :
    SyncSeparates p ↔ p.chMax ≤ p.syncThreshold ∧ p.nCh * p.chMax + p.syncThreshold < p.framePeriod :=
  and_congr_right' Nat.lt_sub_iff_add_lt'

/-- The bound of R9(f) on `SYNC_THRESHOLD` is already in R9(d). -/
theorem timesFit_iff_of_syncFits {p : Params} (h : SyncFits p) :
    TimesFit p ↔ p.framePeriod < 2 ^ 31 ∧ p.srcLossThreshold < 2 ^ 31 ∧ p.snkLossThreshold < 2 ^ 31 ∧
      p.tickPeriod < 2 ^ 31 ∧ p.encStartDelay < 2 ^ 31 := by
  have hs : p.syncThreshold < 2 ^ 31 := lt_of_le_of_lt h (by norm_num)
  simp only [TimesFit, hs, true_and]

section Refusal
variable {s : State}

theorem takeTx_of_not_legal (h : ¬ Legal s.params) (i : Instr) (rule : Params → TxNode → RuleAnswer TxNode) :
    takeTx i s rule = .refused .badConfiguration := if_pos h

theorem takeRx_of_not_legal (h : ¬ Legal s.params) (i : Instr) (rule : Params → RxNode → RuleAnswer RxNode) :
    takeRx i s rule = .refused .badConfiguration := if_pos h

theorem execReset_of_not_legal (h : ¬ Legal s.params) (t : Time) :
    execReset t s = .refused .badConfiguration := if_pos h

/-- Every operation looks at the configuration before anything else (log 11). -/
theorem exec_of_not_legal (h : ¬ Legal s.params) (i : Instr) : exec i s = .refused .badConfiguration := by
  cases i with
  | decEdge t => exact takeTx_of_not_legal h _ _
  | srcChk t => exact takeTx_of_not_legal h _ _
  | srcLd t k => exact takeTx_of_not_legal h _ _
  | srcSend t => exact takeTx_of_not_legal h _ _
  | rxHdr t len => exact takeRx_of_not_legal h _ _
  | rxSt t k raw => exact takeRx_of_not_legal h _ _
  | snkTick t => exact takeRx_of_not_legal h _ _
  | encFire t => exact takeRx_of_not_legal h _ _
  | reset t => exact execReset_of_not_legal h t

/-- A step looks at the configuration before the trace (log 11). -/
theorem step_of_not_legal (h : ¬ Legal s.params) : step s = .refused .badConfiguration := if_neg h

end Refusal

/-- Settles O15: the check is R9's list up to the spelling of (e) and the repetition in (f); the refusal is the first
branch of the step and of every operation. -/
theorem illegalConfigurationsAreRefused : Obligations.IllegalConfigurationsAreRefused := by
  refine ⟨fun p => ?_, fun s h => ⟨step_of_not_legal h, exec_of_not_legal h⟩⟩
  rw [legal_iff, syncSeparates_iff]
  refine and_congr_right' (and_congr_right' (and_congr_right' (and_congr_right fun hsync => and_congr_right' ?_)))
  exact timesFit_iff_of_syncFits hsync

end Sys2Proof.Proofs
end

section
/-! PROOFS. The arithmetic primitives of spec/00_scope.md R12, as numbers. -/

namespace Sys2Proof.Proofs

open Sys2Proof.Machine Sys2Proof.Laws

theorem elapsed_toNat (t t0 : Time) : (elapsed t t0).toNat = (t.toNat + (2 ^ 32 - t0.toNat)) % 2 ^ 32 := by
  rw [elapsed, BitVec.toNat_sub, Nat.add_comm]

/-- `satsub` saturates just where subtraction of numbers does. -/
theorem satsub_toNat (a b : Time) : (satsub a b).toNat = a.toNat - b.toNat := by
  by_cases h : b.toNat ≤ a.toNat
  · exact satsub_toNat_of_le h
  · have hsat : satsub a b = 0 := if_neg h
    rw [hsat, Nat.sub_eq_zero_of_le (Nat.le_of_not_le h)]
    rfl

theorem add32_toNat (a b : Time) : (add32 a b).toNat = (a.toNat + b.toNat) % 2 ^ 32 := BitVec.toNat_add a b

/-- The three branches of `clamp` are the three places of `v` against an interval whose ends fit 16 bits. -/
theorem clamp_toNat {p : Params} (hband : p.chMin ≤ p.chMax) (hfit : p.chMax ≤ 65535) (v : Channel) :
    (clamp p v).toNat = max p.chMin (min p.chMax v.toNat) := by
  have exact16 : ∀ k ≤ p.chMax, (BitVec.ofNat 16 k).toNat = k := fun k hk => by
    rw [BitVec.toNat_ofNat, Nat.mod_eq_of_lt (by omega)]
  unfold clamp
  split
  next hlow => rw [exact16 _ hband]; omega
  next hlow =>
    split
    next hhigh => rw [exact16 _ le_rfl]; omega
    next hhigh => omega

/-- R9(b) orders the ends of the band and bounds the upper one. -/
theorem channelBand_of_legal {p : Params} (h : Legal p) : p.chMin ≤ p.chMax ∧ p.chMax ≤ 65535 := by
  obtain ⟨-, ⟨-, hmin, hmax, hfit⟩, -⟩ := legal_iff.mp h
  exact ⟨hmin.trans hmax, hfit⟩

theorem fromLe16_toNat (b0 b1 : Byte) : (fromLe16 b0 b1).toNat = b0.toNat + 256 * b1.toNat := by
  have hshift : b1.toNat <<< 8 = 2 ^ 8 * b1.toNat := by rw [Nat.shiftLeft_eq, Nat.mul_comm]
  rw [fromLe16, BitVec.toNat_append, hshift, ← Nat.two_pow_add_eq_or_of_lt b0.isLt, Nat.add_comm]

/-- The two bytes of a value are its digits to the base 256. -/
theorem toNat_eq_bytes (v : Channel) :
    v.toNat = (v.extractLsb' 0 8).toNat + 256 * (v.extractLsb' 8 8).toNat := by
  have hv := v.isLt
  simp only [BitVec.extractLsb'_toNat, Nat.shiftRight_eq_div_pow]
  omega

theorem fromLe16_extract (v : Channel) : fromLe16 (v.extractLsb' 0 8) (v.extractLsb' 8 8) = v :=
  BitVec.eq_of_toNat_eq ((fromLe16_toNat _ _).trans (toNat_eq_bytes v).symm)

/-- Settles O33: each primitive by its value as a number. -/
theorem arithmeticPrimitivesAreExact : Obligations.ArithmeticPrimitivesAreExact := by
  refine ⟨elapsed_toNat, satsub_toNat, add32_toNat, fun e k => exceeds_iff, fun p v hlegal => ?_, fun v => ?_⟩
  · obtain ⟨hband, hfit⟩ := channelBand_of_legal hlegal
    exact clamp_toNat hband hfit v
  · exact ⟨_, _, rfl, toNat_eq_bytes v, fromLe16_extract v⟩

end Sys2Proof.Proofs
end

section
/-! PROOFS. `status_out` and the link registers (spec/10_state.md R25, R27, R33; spec/00_scope.md R13). -/

namespace Sys2Proof.Proofs

open Sys2Proof.Machine Sys2Proof.Laws

@[simp] theorem status_iff {l : LinkState} : l.status = true ↔ l = .lost := by
  rw [LinkState.status, decide_eq_true_iff]

section Records

@[simp] theorem statusRecords_nil : statusRecords [] = [] := rfl
@[simp] theorem statusRecords_ppm (t : Time) (l : Bool) : statusRecords [.ppm t l] = [] := rfl
@[simp] theorem statusRecords_send (t : Time) (a : Nat) (bs : List Byte) : statusRecords [.send t a bs] = [] := rfl

@[simp] theorem statusRecords_statusRecord (t : Time) (old new : LinkState) :
    statusRecords (statusRecord t old new) = statusRecord t old new := by
  by_cases h : old = new
  · rw [h, statusRecord_self, statusRecords_nil]
  · rw [statusRecord_ne h]; rfl

theorem mem_of_mem_statusRecords {o : Output} {out : List Output} (h : o ∈ statusRecords out) : o ∈ out :=
  List.mem_of_mem_filter h

/-- RESET logs its `STATUS(t, 1)` on either role (R135, log 16). -/
theorem status_mem_resetRecords (r : Role) (t : Time) : .status t true ∈ resetRecords r t := by
  cases r with
  | tx => exact List.mem_singleton_self _
  | rx => exact List.mem_cons_of_mem _ (List.mem_singleton_self _)

end Records

section Links

@[simp] theorem link_tx (n : TxNode) : (Node.tx n).link = n.srcLink := rfl
@[simp] theorem link_rx (n : RxNode) : (Node.rx n).link = n.snkLink := rfl

@[simp] theorem statusOut_nodeReset (p : Params) (r : Role) (t : Time) : (nodeReset p r t).statusOut = true := by
  cases r <;> rfl

/-- The encoder does not touch the sink supervisor's link (R113). -/
theorem encoderBranch_snkLink {p : Params} {n : RxNode} {seg : Segment} (h : encoderBranch p n = some seg) :
    seg.1.snkLink = n.snkLink := by
  obtain ⟨-, v, -, rfl⟩ | ⟨-, -, rfl⟩ | ⟨-, -, rfl⟩ | ⟨-, rfl⟩ | ⟨-, rfl⟩ := encoderBranch_some h <;> rfl

end Links

/-- The operation of time `t0` from `s` to `t` only adds records, and the STATUS records it adds are those of R13: one
of the new level if the link has changed, none otherwise. -/
def LogsLinkChange (t0 : Time) (s t : State) : Prop :=
  ∃ out, t.log = s.log ++ out ∧ statusRecords out = statusRecord t0 s.node.link t.node.link

section LogsLinkChange
variable {t0 : Time} {s t : State} {n : Node} {out : List Output}

theorem logsLinkChange_putNode (h : statusRecords out = statusRecord t0 s.node.link n.link) :
    LogsLinkChange t0 s (s.putNode n out) :=
  ⟨out, rfl, h⟩

/-- An operation that leaves the link alone must log no STATUS record. -/
theorem logsLinkChange_of_link_eq (hlink : n.link = s.node.link) (hout : statusRecords out = []) :
    LogsLinkChange t0 s (s.putNode n out) :=
  logsLinkChange_putNode (by rw [hlink, hout, statusRecord_self])

/-- An operation that sets the link logs just `statusRecord`. -/
theorem logsLinkChange_statusRecord {old new : LinkState} (hold : s.node.link = old) (hnew : n.link = new) :
    LogsLinkChange t0 s (s.putNode n (statusRecord t0 old new)) :=
  logsLinkChange_putNode (by rw [hold, hnew, statusRecords_statusRecord])

end LogsLinkChange

/-- Every operation but RESET: the edge past the sync threshold, the check and the sink's tick set the link, and every
other branch leaves it alone. -/
theorem exec_logsLinkChange {i : Instr} {s t : State} (hi : ∀ t0, i ≠ .reset t0) (h : exec i s = .next t) :
    LogsLinkChange i.time s t := by
  cases i with
  | decEdge t0 =>
    obtain ⟨n, ⟨hn, -⟩, ⟨-, rfl⟩ | ⟨-, -, rfl⟩ | ⟨-, -, rfl⟩⟩ := execDecEdge_next h
    · exact logsLinkChange_statusRecord (by rw [hn, link_tx]) rfl
    · exact logsLinkChange_of_link_eq (by rw [hn]; rfl) rfl
    · exact logsLinkChange_of_link_eq (by rw [hn]; rfl) rfl
  | srcChk t0 =>
    obtain ⟨n, ⟨hn, -⟩, rfl⟩ := execSrcChk_next h
    exact logsLinkChange_statusRecord (by rw [hn, link_tx]) rfl
  | srcLd t0 k =>
    obtain ⟨n, v, ⟨hn, -⟩, -, rfl⟩ := execSrcLd_next h
    exact logsLinkChange_of_link_eq (by rw [hn]; rfl) rfl
  | srcSend t0 =>
    obtain ⟨n, ⟨hn, -⟩, ⟨-, rfl⟩ | ⟨-, rfl⟩⟩ := execSrcSend_next h
    · exact logsLinkChange_of_link_eq (by rw [hn]) (statusRecords_send _ _ _)
    · exact logsLinkChange_of_link_eq (by rw [hn]) rfl
  | rxHdr t0 len =>
    obtain ⟨n, ⟨hn, -⟩, ⟨-, rfl⟩ | ⟨-, rfl⟩⟩ := execRxHdr_next h
    · exact logsLinkChange_of_link_eq (by rw [hn]; rfl) rfl
    · exact logsLinkChange_of_link_eq (by rw [hn]) rfl
  | rxSt t0 k raw =>
    obtain ⟨n, ⟨hn, -⟩, rfl⟩ := execRxSt_next h
    exact logsLinkChange_of_link_eq (by rw [hn]; rfl) rfl
  | snkTick t0 =>
    obtain ⟨n, ⟨hn, -⟩, rfl⟩ := execSnkTick_next h
    exact logsLinkChange_statusRecord (by rw [hn, link_rx]) rfl
  | encFire t0 =>
    obtain ⟨n, m, d, ⟨hn, -⟩, -, hbranch, rfl⟩ := execEncFire_next h
    exact logsLinkChange_of_link_eq (by rw [hn]; exact encoderBranch_snkLink hbranch) (statusRecords_ppm _ _)
  | reset t0 => exact absurd rfl (hi t0)

/-- Settles O40: RESET logs `STATUS(t, 1)` in any case, and the records of every other operation are those of
`exec_logsLinkChange`. -/
theorem statusFollowsTheLink : Obligations.StatusFollowsTheLink := by
  refine ⟨fun n => status_iff, fun n => status_iff, fun i s t h => ?_⟩
  by_cases hreset : ∃ t0, i = .reset t0
  · obtain ⟨t0, rfl⟩ := hreset
    obtain ⟨-, rfl⟩ := execReset_next h
    refine ⟨resetRecords s.role t0, rfl, fun _ => ?_, fun hi => absurd rfl (hi t0)⟩
    rw [putNode_node, statusOut_nodeReset]
    exact status_mem_resetRecords _ _
  · obtain ⟨out, hlog, hstatus⟩ := exec_logsLinkChange (not_exists.mp hreset) h
    refine ⟨out, hlog, fun hlink => ?_, fun _ => ?_⟩
    · refine mem_of_mem_statusRecords ?_
      rw [hstatus, statusRecord_ne (Ne.symm hlink)]
      exact List.mem_singleton_self _
    · rw [hstatus, statusRecord]
      exact if_congr eq_comm rfl rfl

end Sys2Proof.Proofs
end

section
/-! PROOFS. The registers after RESET by their numbers, and before it (spec/10_state.md R38, R39; R81(a)). -/

namespace Sys2Proof.Proofs

open Sys2Proof.Machine Sys2Proof.Laws

/-- An array of one value, read by register number. -/
theorem replicate_read {n k c : Nat} (hk : k < n) (hc : c ≤ 65535) :
    ((List.replicate n (BitVec.ofNat 16 c : Channel))[k]?).map BitVec.toNat = some c := by
  rw [List.getElem?_replicate_of_lt hk, Option.map_some, BitVec.toNat_ofNat, Nat.mod_eq_of_lt (by omega)]

section ResetReads
variable {p : Params} (hlegal : Legal p) (t : Time)
include hlegal

theorem chReset_le_of_legal : p.chReset ≤ 65535 := by
  obtain ⟨-, ⟨-, -, hmax, hfit⟩, -⟩ := legal_iff.mp hlegal
  exact hmax.trans hfit

/-- R9(a) lets S0 hold the value `N_CH`. -/
theorem txReset_readReg_decIdx : (txReset p t).readReg (.s 0) = some p.nCh := by
  obtain ⟨⟨-, hfit⟩, -⟩ := legal_iff.mp hlegal
  show some (BitVec.ofNat 8 p.nCh).toNat = some p.nCh
  rw [BitVec.toNat_ofNat, Nat.mod_eq_of_lt (by omega)]

theorem txReset_readReg_ch {k : Nat} (hk : k < p.nCh) : (txReset p t).readReg (.c k) = some p.chReset :=
  replicate_read hk (chReset_le_of_legal hlegal)

theorem txReset_readReg_txBuf {k : Nat} (hk : k < p.nCh) : (txReset p t).readReg (.b k) = some p.chReset :=
  replicate_read hk (chReset_le_of_legal hlegal)

theorem rxReset_readReg_ch {k : Nat} (hk : k < p.nCh) : (rxReset p t).readReg (.c k) = some p.chReset :=
  replicate_read hk (chReset_le_of_legal hlegal)

/-- R9(f) makes `ENC_START_DELAY` exact in 32 bits. -/
theorem rxReset_readReg_tmrDeadline :
    (rxReset p t).readReg (.s 9) = some ((t.toNat + p.encStartDelay) % 2 ^ 32) := by
  obtain ⟨-, -, -, -, -, -, -, -, -, -, hdelay⟩ := legal_iff.mp hlegal
  show some (add32 t (micros p.encStartDelay)).toNat = _
  rw [add32_toNat, micros_toNat (by omega)]

/-- R39 leaves no register unspecified. The S registers read some value in every state; an element does because RESET
fills the arrays. -/
theorem nodeReset_readReg_isSome {r : Role} {g : Reg} (hg : g ∈ regsOf r p.nCh) :
    ∃ v, (nodeReset p r t).readReg g = some v := by
  cases r with
  | tx =>
    simp only [regsOf, List.mem_append, List.mem_cons, List.not_mem_nil, or_false, List.mem_map, List.mem_range] at hg
    obtain ((rfl | rfl | rfl | rfl) | ⟨k, hk, rfl⟩) | ⟨k, hk, rfl⟩ := hg
    iterate 4 exact ⟨_, rfl⟩
    · exact ⟨_, txReset_readReg_ch hlegal t hk⟩
    · exact ⟨_, txReset_readReg_txBuf hlegal t hk⟩
  | rx =>
    simp only [regsOf, List.mem_append, List.mem_cons, List.not_mem_nil, or_false, List.mem_map, List.mem_range] at hg
    obtain (rfl | rfl | rfl | rfl | rfl | rfl | rfl | rfl) | ⟨k, hk, rfl⟩ := hg
    iterate 8 exact ⟨_, rfl⟩
    exact ⟨_, rxReset_readReg_ch hlegal t hk⟩

end ResetReads

theorem execReset_of_legal {s : State} (h : Legal s.params) (t : Time) :
    execReset t s = .next (s.putNode (nodeReset s.params s.role t) (resetRecords s.role t)) :=
  if_neg (not_not.mpr h)

theorem isReset_iff {i : Instr} : isReset i = true ↔ ∃ t, i = .reset t := by
  cases i <;> simp [isReset, Instr.opcode]

/-- R81(a): what a step runs before the first RESET is a RESET. -/
theorem decoded_isReset_of_not_started {s u : State} {w : EventWord} {rest : List EventWord} {i : Instr}
    (hpending : s.pending = w :: rest) (hstarted : s.monitor.started = false)
    (hdecode : decodeFor s.params.nCh s.role w = .ok i) (h : step s = .next u) : ∃ t, i = .reset t := by
  obtain ⟨-, ⟨hnil, -⟩ | ⟨w', rest', i', m, hcons, hdecode', hobserve, -⟩⟩ := step_next h
  · rw [hpending] at hnil; cases hnil
  · obtain ⟨rfl, -⟩ := List.cons.inj (hpending.symm.trans hcons)
    obtain rfl := Except.ok.inj (hdecode.symm.trans hdecode')
    obtain ⟨-, hreset, -⟩ | ⟨hstarted', -⟩ := observe_ok hobserve
    · exact isReset_iff.mp hreset
    · rw [hstarted] at hstarted'; cases hstarted'

/-- Settles O42: a register is a parameter that fits its width by R9, or a constant of R39 and R82. -/
theorem resetValuesByRegister : Obligations.ResetValuesByRegister := by
  refine ⟨fun p t hlegal => ⟨?_, ?_, fun r g hg => nodeReset_readReg_isSome hlegal t hg⟩,
    fun s t hlegal => ⟨_, execReset_of_legal hlegal t, rfl⟩,
    fun s w rest i hpending hstarted hdecode hi u h => ?_⟩
  · exact ⟨txReset_readReg_decIdx hlegal t, rfl, rfl, rfl,
      fun k hk => ⟨txReset_readReg_ch hlegal t hk, txReset_readReg_txBuf hlegal t hk⟩⟩
  · exact ⟨rfl, rfl, rfl, rfl, rfl, rfl, rxReset_readReg_tmrDeadline hlegal t, rfl,
      fun k hk => rxReset_readReg_ch hlegal t hk⟩
  · obtain ⟨t, rfl⟩ := decoded_isReset_of_not_started hpending hstarted hdecode h
    exact hi t rfl

end Sys2Proof.Proofs
end

section
/-! PROOFS. The numbers of the enumerated registers (spec/30_encoding.md R82). -/

namespace Sys2Proof.Proofs

open Sys2Proof.Machine

theorem linkState_decode_encode (l : LinkState) : LinkState.decode l.encode = l := by
  cases l with
  | active => exact if_neg (by decide)
  | lost => exact if_pos rfl

theorem encState_decode_encode (e : EncState) : EncState.decode e.encode = e := by
  cases e <;> rfl

/-- Settles O43: the numbers are the model's tables, and each is read back. -/
theorem enumerationEncodings : Obligations.EnumerationEncodings :=
  ⟨⟨rfl, rfl⟩, ⟨rfl, rfl, rfl, rfl⟩, ⟨rfl, rfl⟩, ⟨rfl, rfl⟩, linkState_decode_encode, encState_decode_encode⟩

end Sys2Proof.Proofs
end

section
/-! PROOFS. The fields of an event word as numbers (spec/30_encoding.md R70). -/

namespace Sys2Proof.Proofs

open Sys2Proof.Laws

section Fields
variable (w : EventWord)

theorem opField_toNat : (opField w).toNat = w.toNat / 2 ^ 56 := by
  have hw := w.isLt
  rw [opField, BitVec.extractLsb'_toNat, Nat.shiftRight_eq_div_pow]
  omega

theorem aField_toNat : (aField w).toNat = w.toNat / 2 ^ 48 % 2 ^ 8 := by
  rw [aField, BitVec.extractLsb'_toNat, Nat.shiftRight_eq_div_pow]

theorem vField_toNat : (vField w).toNat = w.toNat / 2 ^ 32 % 2 ^ 16 := by
  rw [vField, BitVec.extractLsb'_toNat, Nat.shiftRight_eq_div_pow]

theorem tField_toNat : (tField w).toNat = w.toNat % 2 ^ 32 := by
  rw [tField, BitVec.extractLsb'_toNat, Nat.shiftRight_zero]

/-- The four slices leave no bit of a word out and none in two of them. -/
theorem toNat_eq_fields :
    w.toNat =
      (opField w).toNat * 2 ^ 56 + (aField w).toNat * 2 ^ 48 + (vField w).toNat * 2 ^ 32 + (tField w).toNat := by
  rw [opField_toNat, aField_toNat, vField_toNat, tField_toNat]
  omega

end Fields

theorem assembleWord_toNat (op a : BitVec 8) (v : BitVec 16) (t : Time) :
    (assembleWord op a v t).toNat = op.toNat * 2 ^ 56 + a.toNat * 2 ^ 48 + v.toNat * 2 ^ 32 + t.toNat := by
  simpa only [opField_assemble, aField_assemble, vField_assemble, tField_assemble] using
    toNat_eq_fields (assembleWord op a v t)

/-- Settles O5: the slices by division, and the encoding by the sum of its slices. -/
theorem eventWordLayout : Obligations.EventWordLayout :=
  ⟨fun w => ⟨opField_toNat w, aField_toNat w, vField_toNat w, tField_toNat w⟩,
    fun i => assembleWord_toNat i.opcode.code i.aOperand i.vOperand i.time⟩

end Sys2Proof.Proofs
end

section
/-! PROOFS. A trace as bytes, and the bytes read back (spec/30_encoding.md R83). -/

namespace Sys2Proof.Proofs

/-- Byte `j` of a number is its digit of weight `256 ^ j`. -/
theorem leBytes_eq_map (k x : Nat) : leBytes k x = (List.range k).map (fun j => BitVec.ofNat 8 (x / 256 ^ j)) := by
  induction k generalizing x with
  | zero => rfl
  | succ k ih =>
    rw [leBytes, ih, List.range_succ_eq_map, List.map_cons, List.map_map, pow_zero, Nat.div_one]
    simp only [Function.comp_def, Nat.div_div_eq_div_mul, Nat.succ_eq_add_one, pow_succ']

/-- The digits of a number give it back, up to the digits left out. -/
theorem ofLeBytes_leBytes (k x : Nat) : ofLeBytes (leBytes k x) = x % 256 ^ k := by
  induction k generalizing x with
  | zero => rw [pow_zero, Nat.mod_one]; rfl
  | succ k ih => rw [leBytes, ofLeBytes, ih, pow_succ', Nat.mod_mul, BitVec.toNat_ofNat]

theorem wordBytes_eq_map (w : EventWord) :
    wordBytes w = (List.range 8).map (fun k => (w >>> (8 * k)).setWidth 8) := by
  rw [wordBytes, leBytes_eq_map]
  refine List.map_congr_left fun k _ => BitVec.eq_of_toNat_eq ?_
  rw [BitVec.toNat_ofNat, BitVec.toNat_setWidth, BitVec.toNat_ushiftRight, Nat.shiftRight_eq_div_pow, pow_mul]
  rfl

/-- The reader takes back the word that was written first, whatever bytes follow. -/
theorem takeWord_wordBytes_append (w : EventWord) (rest : List Byte) :
    takeWord (wordBytes w ++ rest) = some (w, rest) := by
  have htake : takeWord (wordBytes w ++ rest) = some (BitVec.ofNat 64 (ofLeBytes (wordBytes w)), rest) := rfl
  have hlt : w.toNat < 256 ^ 8 := w.isLt
  rw [htake, wordBytes, ofLeBytes_leBytes, Nat.mod_eq_of_lt hlt, BitVec.ofNat_toNat, BitVec.setWidth_eq]

theorem serialise_cons (w : EventWord) (ws : List EventWord) : serialise (w :: ws) = wordBytes w ++ serialise ws :=
  List.flatMap_cons

theorem deserialiseFuel_of_takeWord {bs rest : List Byte} {w : EventWord} (h : takeWord bs = some (w, rest))
    (fuel : Nat) : deserialiseFuel (fuel + 1) bs = (deserialiseFuel fuel rest).map (w :: ·) := by
  cases bs with
  | nil => cases h
  | cons b bs =>
    rw [deserialiseFuel, h]
    exact List.cons_ne_nil b bs

/-- One unit of fuel a word is enough. -/
theorem deserialiseFuel_serialise {ws : List EventWord} {fuel : Nat} (h : ws.length ≤ fuel) :
    deserialiseFuel fuel (serialise ws) = some ws := by
  induction ws generalizing fuel with
  | nil => rw [serialise, List.flatMap_nil, deserialiseFuel]
  | cons w ws ih =>
    obtain ⟨fuel, rfl⟩ := Nat.exists_eq_add_of_le' (Nat.zero_lt_of_lt h)
    rw [serialise_cons, deserialiseFuel_of_takeWord (takeWord_wordBytes_append w _), ih (Nat.le_of_succ_le_succ h)]
    rfl

theorem length_le_length_serialise (ws : List EventWord) : ws.length ≤ (serialise ws).length := by
  induction ws with
  | nil => exact Nat.zero_le _
  | cons w ws ih =>
    have hbytes : (wordBytes w).length = 8 := rfl
    rw [serialise_cons, List.length_append, List.length_cons, hbytes]
    omega

theorem deserialise_serialise (ws : List EventWord) : deserialise (serialise ws) = some ws :=
  deserialiseFuel_serialise (length_le_length_serialise ws)

/-- Settles O6: the bytes of one word by shifts, and the induction over the words of a trace. -/
theorem serialisedTraceReadsBack : Obligations.SerialisedTraceReadsBack := by
  refine ⟨fun w ws => ?_, rfl, deserialise_serialise⟩
  rw [serialise_cons, wordBytes_eq_map]

end Sys2Proof.Proofs
end

section
/-! PROOFS. The opcode table and the decoder: mask and match, and the reasons for a refusal (spec/30_encoding.md R71,
R73, R74). -/

namespace Sys2Proof.Proofs

open Sys2Proof.Machine Sys2Proof.Laws

section Table
variable {o : Opcode}

theorem mem_opcode_all (o : Opcode) : o ∈ Opcode.all := by
  cases o <;> decide

theorem ofCode_eq_some_iff {c : BitVec 8} : Opcode.ofCode? c = some o ↔ o.code = c :=
  ⟨code_of_ofCode, fun h => h ▸ ofCode_code o⟩

theorem ofCode_eq_none_iff {c : BitVec 8} : Opcode.ofCode? c = none ↔ ∀ o : Opcode, o.code ≠ c := by
  simp only [Option.eq_none_iff_forall_ne_some, ne_eq, ofCode_eq_some_iff]

/-- No two rows share an opcode number. -/
theorem code_injective {o o' : Opcode} (h : o.code = o'.code) : o = o' :=
  Option.some.inj ((ofCode_code o).symm.trans (h ▸ ofCode_code o'))

end Table

section Build
variable (o : Opcode) (a : BitVec 8) (v : BitVec 16) (t : Time)

@[simp] theorem opcode_build : (o.build a v t).opcode = o := by
  cases o <;> rfl

/-- Formats I and S have an index operand, and it is the field `a`. -/
theorem index_build : (o.build a v t).index? = if o.format = .i ∨ o.format = .s then some a else none := by
  cases o <;> rfl

theorem wellFormed_build_iff (nCh : Nat) :
    (o.build a v t).WellFormed nCh ↔ (o.format = .i ∨ o.format = .s → a.toNat < nCh) := by
  rw [Instr.WellFormed, Instr.wellFormed, index_build]
  by_cases h : o.format = .i ∨ o.format = .s <;> simp [h]

end Build

theorem roleOk_iff {i : Instr} {r : Role} : i.roleOk r = true ↔ ∀ q, i.role? = some q → q = r := by
  rw [Instr.roleOk]
  cases i.role? <;> simp

/-- R71, by the field: formats T and L hold `a` to zero, formats T and I hold `v`. -/
theorem reservedOk_eq_false_iff {f : Format} {a : BitVec 8} {v : BitVec 16} :
    f.reservedOk a v = false ↔ (a ≠ 0 ∧ (f = .t ∨ f = .l)) ∨ (v ≠ 0 ∧ (f = .t ∨ f = .i)) := by
  cases f <;> simp [Format.reservedOk, imp_iff_not_or]

theorem aField_eq_shift (w : EventWord) : aField w = (w >>> 48).setWidth 8 :=
  BitVec.eq_of_toNat_eq (by
    rw [aField_toNat, BitVec.toNat_setWidth, BitVec.toNat_ushiftRight, Nat.shiftRight_eq_div_pow])

/-! ### Mask and match -/

/-- The bits of field `a` a row's mask looks at: all where the format reserves the field (R71). -/
def aMask : Format → BitVec 8
  | .t => 0xFF
  | .i => 0
  | .l => 0xFF
  | .s => 0

/-- The bits of field `v` a row's mask looks at. -/
def vMask : Format → BitVec 16
  | .t => 0xFFFF
  | .i => 0xFFFF
  | .l => 0
  | .s => 0

theorem mask_eq_assemble (o : Opcode) : o.mask = assembleWord 0xFF (aMask o.format) (vMask o.format) 0 := by
  cases o <;> decide

theorem pattern_eq_assemble (o : Opcode) : o.pattern = assembleWord o.code 0 0 0 := by
  cases o <;> decide

theorem reservedOk_iff_and_mask {f : Format} {a : BitVec 8} {v : BitVec 16} :
    f.reservedOk a v = true ↔ a &&& aMask f = 0 ∧ v &&& vMask f = 0 := by
  cases f with
  | t => rw [aMask, vMask, and_ones8, and_ones16]; simp [Format.reservedOk]
  | i => rw [aMask, vMask, and_ones16]; simp [Format.reservedOk]
  | l => rw [aMask, vMask, and_ones8]; simp [Format.reservedOk]
  | s => simp [Format.reservedOk, aMask, vMask]

theorem assembleWord_inj {op a op' a' : BitVec 8} {v v' : BitVec 16} {t t' : Time} :
    assembleWord op a v t = assembleWord op' a' v' t' ↔ op = op' ∧ a = a' ∧ v = v' ∧ t = t' := by
  refine ⟨fun h => ⟨?_, ?_, ?_, ?_⟩, fun ⟨hop, ha, hv, ht⟩ => by rw [hop, ha, hv, ht]⟩
  · simpa using congrArg opField h
  · simpa using congrArg aField h
  · simpa using congrArg vField h
  · simpa using congrArg tField h

/-- A row's mask and match say what the decoder checks before the index: the opcode, and the reserved fields zero. -/
theorem and_mask_eq_pattern_iff {w : EventWord} {o : Opcode} :
    w &&& o.mask = o.pattern ↔ o.code = opField w ∧ o.format.reservedOk (aField w) (vField w) = true := by
  conv_lhs => rw [← assemble_fields w, mask_eq_assemble, pattern_eq_assemble, and_assemble, assembleWord_inj, and_ones8]
  rw [reservedOk_iff_and_mask, eq_comm (a := opField w)]
  simp

/-! ### What the decoder answers -/

section Decoder
variable {nCh : Nat} {r : Role} {w : EventWord} {i : Instr} {why : WordReason}

theorem decodeWord_of_no_code (h : ∀ o : Opcode, o.code ≠ opField w) : decodeWord nCh w = .error .badOpcode := by
  rw [decodeWord, ofCode_eq_none_iff.mpr h]

/-- The word of a row: the reserved fields are looked at before the index (log 13). -/
theorem decodeWord_of_code {o : Opcode} (h : o.code = opField w) :
    decodeWord nCh w =
      if o.format.reservedOk (aField w) (vField w) then
        if (o.build (aField w) (vField w) (tField w)).wellFormed nCh then .ok (o.build (aField w) (vField w) (tField w))
        else .error .badIndex
      else .error .badReservedField := by
  rw [decodeWord, ofCode_eq_some_iff.mpr h]

/-- A word is accepted when it has a row, its reserved fields are zero and its index is in range. -/
theorem decodeWord_eq_ok_iff : decodeWord nCh w = .ok i ↔
    ∃ o : Opcode, o.code = opField w ∧ o.format.reservedOk (aField w) (vField w) = true ∧
      (o.format = .i ∨ o.format = .s → (aField w).toNat < nCh) ∧ o.build (aField w) (vField w) (tField w) = i := by
  simp only [← wellFormed_build_iff _ _ (vField w) (tField w)]
  constructor
  · intro h
    by_cases hcode : ∃ o : Opcode, o.code = opField w
    · obtain ⟨o, ho⟩ := hcode
      rw [decodeWord_of_code ho] at h
      split at h
      next hreserved =>
        split at h
        next hindex => exact ⟨o, ho, hreserved, hindex, Except.ok.inj h⟩
        next hindex => cases h
      next hreserved => cases h
    · rw [decodeWord_of_no_code (not_exists.mp hcode)] at h
      cases h
  · rintro ⟨o, ho, hreserved, hindex, rfl⟩
    rw [decodeWord_of_code ho, if_pos hreserved, if_pos hindex]

/-- R74(a), (b), (c): the reason `decodeWord` names is one that holds, for any role. -/
theorem reasonHolds_of_decodeWord_eq_error (h : decodeWord nCh w = .error why) (r : Role) :
    ReasonHolds nCh r w why := by
  by_cases hcode : ∃ o : Opcode, o.code = opField w
  · obtain ⟨o, ho⟩ := hcode
    rw [decodeWord_of_code ho] at h
    split at h
    next hreserved =>
      split at h
      next hindex => cases h
      next hindex =>
        cases h
        obtain ⟨hformat, hle⟩ := Classical.not_imp.mp (mt (wellFormed_build_iff _ _ _ _ _).mpr hindex)
        exact ⟨o, ho, hformat, Nat.le_of_not_lt hle⟩
    next hreserved =>
      cases h
      exact ⟨o, ho, reservedOk_eq_false_iff.mp (Bool.eq_false_of_not_eq_true hreserved)⟩
  · rw [decodeWord_of_no_code (not_exists.mp hcode)] at h
    cases h
    exact not_exists.mp hcode

theorem decodeFor_of_error (h : decodeWord nCh w = .error why) : decodeFor nCh r w = .error why := by
  rw [decodeFor, h]

theorem decodeFor_of_ok (h : decodeWord nCh w = .ok i) :
    decodeFor nCh r w = if i.roleOk r then .ok i else .error .wrongRole := by
  rw [decodeFor, h]

/-- R74: the reason the decoder of an instance names is one that holds. -/
theorem reasonHolds_of_decodeFor_eq_error (h : decodeFor nCh r w = .error why) : ReasonHolds nCh r w why := by
  cases hword : decodeWord nCh w with
  | error e =>
    rw [decodeFor_of_error hword] at h
    cases h
    exact reasonHolds_of_decodeWord_eq_error hword r
  | ok i =>
    rw [decodeFor_of_ok hword] at h
    split at h
    next hrole => cases h
    next hrole =>
      cases h
      obtain ⟨o, ho, -, -, rfl⟩ := decodeWord_eq_ok_iff.mp hword
      rw [roleOk_iff, Instr.role?, opcode_build] at hrole
      push Not at hrole
      exact ⟨o, ho, hrole⟩

theorem decodeFor_eq_ok_iff : decodeFor nCh r w = .ok i ↔ decodeWord nCh w = .ok i ∧ i.roleOk r = true := by
  cases hword : decodeWord nCh w with
  | error e => simp [decodeFor_of_error hword]
  | ok j =>
    rw [decodeFor_of_ok hword]
    constructor
    · intro h
      split at h
      next hrole => obtain rfl := Except.ok.inj h; exact ⟨rfl, hrole⟩
      next hrole => cases h
    · rintro ⟨h, hrole⟩
      obtain rfl := Except.ok.inj h
      exact if_pos hrole

/-- R74: of a word that is accepted no reason holds, since its opcode number leaves it one row. -/
theorem not_reasonHolds_of_decodeFor_eq_ok (h : decodeFor nCh r w = .ok i) : ¬ ReasonHolds nCh r w why := by
  obtain ⟨hword, hrole⟩ := decodeFor_eq_ok_iff.mp h
  obtain ⟨o, ho, hreserved, hindex, rfl⟩ := decodeWord_eq_ok_iff.mp hword
  rw [roleOk_iff, Instr.role?, opcode_build] at hrole
  intro hwhy
  cases why with
  | badOpcode => exact hwhy o ho
  | badReservedField =>
    obtain ⟨o', ho', hfield⟩ := hwhy
    obtain rfl := code_injective (ho'.trans ho.symm)
    rw [reservedOk_eq_false_iff.mpr hfield] at hreserved
    cases hreserved
  | badIndex =>
    obtain ⟨o', ho', hformat, hle⟩ := hwhy
    obtain rfl := code_injective (ho'.trans ho.symm)
    exact Nat.not_lt_of_le hle (hindex hformat)
  | wrongRole =>
    obtain ⟨o', ho', q, hq, hne⟩ := hwhy
    obtain rfl := code_injective (ho'.trans ho.symm)
    exact hne (hrole q hq)
  | shortInput => exact hwhy

end Decoder

/-- Settles O3: the rows are the model's columns; mask and match are the decoder's checks of opcode and reserved fields,
and its check of the index is the bound. -/
theorem decoderAgreesWithOpcodeTable : Obligations.DecoderAgreesWithOpcodeTable := by
  refine ⟨rfl, mem_opcode_all, fun nCh w o => ?_⟩
  rw [and_mask_eq_pattern_iff, ← aField_eq_shift]
  constructor
  · rintro ⟨i, hdecode, rfl⟩
    obtain ⟨o, ho, hreserved, hindex, rfl⟩ := decodeWord_eq_ok_iff.mp hdecode
    rw [opcode_build]
    exact ⟨⟨ho, hreserved⟩, hindex⟩
  · rintro ⟨⟨ho, hreserved⟩, hindex⟩
    exact ⟨_, decodeWord_eq_ok_iff.mpr ⟨o, ho, hreserved, hindex, rfl⟩, opcode_build o _ _ _⟩

/-- Settles O4: a word is either refused, for a reason that holds, or accepted, and then no reason holds. -/
theorem refusedWordsAreThoseOfTheFourReasons : Obligations.RefusedWordsAreThoseOfTheFourReasons := by
  refine fun nCh r w => ⟨⟨fun ⟨why, h⟩ => ⟨why, reasonHolds_of_decodeFor_eq_error h⟩, fun ⟨why, hwhy⟩ => ?_⟩,
    fun why => reasonHolds_of_decodeFor_eq_error⟩
  cases h : decodeFor nCh r w with
  | error e => exact ⟨e, rfl⟩
  | ok i => exact absurd hwhy (not_reasonHolds_of_decodeFor_eq_ok h)

end Sys2Proof.Proofs
end

section
/-! PROOFS. The PPM decoder (spec/40_decoder.md): one edge, what may change `ch`, and a whole frame. -/

namespace Sys2Proof.Proofs

open Sys2Proof.Machine Sys2Proof.Laws

section DecoderOperands

theorem nCh_le_of_legal {p : Params} (h : Legal p) : p.nCh ≤ 255 := by
  obtain ⟨⟨-, hfit⟩, -⟩ := legal_iff.mp h
  exact hfit

theorem syncThreshold_le_of_legal {p : Params} (h : Legal p) : p.syncThreshold ≤ 65535 := by
  obtain ⟨-, -, -, hfit, -⟩ := legal_iff.mp h
  exact hfit

/-- R90(d): an interval that is stored loses nothing in 16 bits. -/
theorem interval16_toNat {p : Params} (hlegal : Legal p) {d : Time} (hd : d.toNat ≤ p.syncThreshold) :
    (d.setWidth 16 : Channel).toNat = d.toNat := by
  have hfit := syncThreshold_le_of_legal hlegal
  rw [BitVec.toNat_setWidth, Nat.mod_eq_of_lt (by omega)]

/-- An index below `N_CH` advances without wrapping (R9(a)). -/
theorem index_succ_toNat {p : Params} (hlegal : Legal p) {i : Index} (hi : i.toNat < p.nCh) :
    (i + 1).toNat = i.toNat + 1 := by
  have hfit := nCh_le_of_legal hlegal
  rw [BitVec.toNat_add_of_lt (by simp; omega)]
  rfl

theorem elapsed_add32 (t d : Time) : elapsed (add32 t d) t = d := by
  rw [elapsed, add32, BitVec.add_comm, BitVec.add_sub_cancel]

theorem statusRecord_to_active (t : Time) (old : LinkState) :
    statusRecord t old .active = if old = .lost then [.status t false] else [] := by
  cases old <;> rfl

end DecoderOperands

section PutNode

theorem putNode_nil (s : State) (n : Node) : s.putNode n [] = { s with node := n } := by
  rw [State.putNode, List.append_nil]

theorem putNode_putNode (s : State) (n m : Node) (out out' : List Output) :
    (s.putNode n out).putNode m out' = s.putNode m (out ++ out') := by
  simp only [State.putNode, List.append_assoc]

theorem putNode_self {s : State} {n : Node} (h : s.node = n) : s.putNode n [] = s := by
  rw [putNode_nil, ← h]

theorem putNode_tx_inj {s : State} {n m : TxNode} {out : List Output} (h : (s.putNode (.tx n) out).node = .tx m) :
    n = m :=
  Node.tx.inj h

end PutNode

/-! ### One edge (R90) -/

section OneEdge
variable {s : State} {n : TxNode} {t : Time}
  (hn : s.node = .tx n) (hlegal : Legal s.params) (hinv : TxInv s.params n)
include hn hlegal hinv

theorem exec_decEdge_eq : exec (.decEdge t) s = finish .tx s (decEdgeRule t s.params n) :=
  takeTx_eq hn hlegal rfl hinv

theorem exec_decEdge_of_gap (hgap : s.params.syncThreshold < (elapsed t n.lastEdgeTime).toNat) :
    exec (.decEdge t) s = .next (s.putNode (.tx { n with lastEdgeTime := t, decIdx := 0, srcLink := .active })
      (statusRecord t n.srcLink .active)) := by
  rw [exec_decEdge_eq hn hlegal hinv, decEdgeRule, if_pos (exceeds_iff.mpr hgap), finish]

theorem exec_decEdge_of_pulse (hpulse : (elapsed t n.lastEdgeTime).toNat ≤ s.params.syncThreshold)
    (hidx : n.decIdx.toNat < s.params.nCh) :
    exec (.decEdge t) s = .next (s.putNode (.tx { n with
      lastEdgeTime := t
      ch := writeElem n.ch n.decIdx ((elapsed t n.lastEdgeTime).setWidth 16)
      decIdx := n.decIdx + 1 }) []) := by
  rw [exec_decEdge_eq hn hlegal hinv, decEdgeRule, if_neg (mt exceeds_iff.mp (not_lt.mpr hpulse)), if_pos hidx, finish]

theorem exec_decEdge_of_surplus (hpulse : (elapsed t n.lastEdgeTime).toNat ≤ s.params.syncThreshold)
    (hidx : s.params.nCh ≤ n.decIdx.toNat) :
    exec (.decEdge t) s = .next (s.putNode (.tx { n with lastEdgeTime := t }) []) := by
  rw [exec_decEdge_eq hn hlegal hinv, decEdgeRule, if_neg (mt exceeds_iff.mp (not_lt.mpr hpulse)),
    if_neg (not_lt.mpr hidx), finish]

end OneEdge

/-- Settles O19: the three branches of R90, each with the whole state it answers. -/
theorem decEdgeDecodes : Obligations.DecEdgeDecodes := by
  refine ⟨⟨rfl, rfl, rfl⟩, fun s n t hn hlegal hinv => ⟨interval16_toNat hlegal, ?_⟩⟩
  by_cases hgap : s.params.syncThreshold < (t - n.lastEdgeTime).toNat
  · rw [if_pos hgap, exec_decEdge_of_gap hn hlegal hinv hgap, statusRecord_to_active, State.putNode]
  · rw [if_neg hgap]
    have hpulse := not_lt.mp hgap
    by_cases hidx : n.decIdx.toNat < s.params.nCh
    · rw [if_pos hidx, exec_decEdge_of_pulse hn hlegal hinv hpulse hidx, putNode_nil, writeElem, elapsed]
    · rw [if_neg hidx, exec_decEdge_of_surplus hn hlegal hinv hpulse (not_lt.mp hidx), putNode_nil]

/-! ### What may change `ch` (R93) -/

/-- Registers put back with `ch` as it was leave `ch` of the node as it was. -/
theorem ch_eq_of_putNode {s : State} {n n0 n1 m : TxNode} {out : List Output} (hn : s.node = .tx n)
    (hn0 : s.node = .tx n0) (hm : (s.putNode (.tx n1) out).node = .tx m) (hch : n1.ch = n0.ch) : m.ch = n.ch := by
  obtain rfl := Node.tx.inj (hn.symm.trans hn0)
  obtain rfl := putNode_tx_inj hm
  exact hch

/-- On a TX node an operation leaves `ch` alone, or it is RESET, or an edge that writes the one element at `dec_idx`. -/
theorem exec_tx_ch {i : Instr} {s t : State} {n m : TxNode} (h : exec i s = .next t) (hn : s.node = .tx n)
    (hm : t.node = .tx m) :
    m.ch = n.ch ∨ (∃ t0, i = .reset t0) ∨
      ∃ t0, i = .decEdge t0 ∧ (elapsed t0 n.lastEdgeTime).toNat ≤ s.params.syncThreshold ∧
        n.decIdx.toNat < s.params.nCh ∧
        m.ch = writeElem n.ch n.decIdx ((elapsed t0 n.lastEdgeTime).setWidth 16) := by
  cases i with
  | decEdge t0 =>
    obtain ⟨n', ⟨hn', -⟩, ⟨-, rfl⟩ | ⟨hpulse, hidx, rfl⟩ | ⟨-, -, rfl⟩⟩ := execDecEdge_next h
    · exact .inl (ch_eq_of_putNode hn hn' hm rfl)
    · obtain rfl := Node.tx.inj (hn.symm.trans hn')
      obtain rfl := putNode_tx_inj hm
      exact .inr (.inr ⟨t0, rfl, hpulse, hidx, rfl⟩)
    · exact .inl (ch_eq_of_putNode hn hn' hm rfl)
  | srcChk t0 =>
    obtain ⟨n', ⟨hn', -⟩, rfl⟩ := execSrcChk_next h
    exact .inl (ch_eq_of_putNode hn hn' hm rfl)
  | srcLd t0 k =>
    obtain ⟨n', v, ⟨hn', -⟩, -, rfl⟩ := execSrcLd_next h
    exact .inl (ch_eq_of_putNode hn hn' hm rfl)
  | srcSend t0 =>
    obtain ⟨n', ⟨hn', -⟩, ⟨-, rfl⟩ | ⟨-, rfl⟩⟩ := execSrcSend_next h
    · exact .inl (ch_eq_of_putNode hn hn' hm rfl)
    · exact .inl (ch_eq_of_putNode hn hn' hm rfl)
  | rxHdr t0 len => obtain ⟨n', ⟨hn', -⟩, -⟩ := execRxHdr_next h; cases hn.symm.trans hn'
  | rxSt t0 k raw => obtain ⟨n', ⟨hn', -⟩, -⟩ := execRxSt_next h; cases hn.symm.trans hn'
  | snkTick t0 => obtain ⟨n', ⟨hn', -⟩, -⟩ := execSnkTick_next h; cases hn.symm.trans hn'
  | encFire t0 => obtain ⟨n', m', d, ⟨hn', -⟩, -⟩ := execEncFire_next h; cases hn.symm.trans hn'
  | reset t0 => exact .inr (.inl ⟨t0, rfl⟩)

/-- Settles O36: the one write of `exec_tx_ch` changes no element but that at `dec_idx`. -/
theorem staleChannelValuesPersist : Obligations.StaleChannelValuesPersist := by
  intro i s t n m k h hn hm hne
  obtain hch | hreset | ⟨t0, hi, hpulse, hidx, hch⟩ := exec_tx_ch h hn hm
  · exact absurd (congrArg (·[k]?) hch) hne
  · exact .inl hreset
  · have hk : k = n.decIdx.toNat := by
      by_contra hk
      exact hne (by rw [hch, writeElem_get_ne hk])
    exact .inr ⟨t0, hi, hk, hk ▸ hidx, hpulse⟩

/-! ### A frame (R95) -/

/-- The registers after an edge `d` past the last one, `d` at most `SYNC_THRESHOLD`: R90's two branches for a pulse. -/
def afterPulse (p : Params) (n : TxNode) (d : Time) : TxNode :=
  if n.decIdx.toNat < p.nCh then
    { n with
      lastEdgeTime := add32 n.lastEdgeTime d
      ch := writeElem n.ch n.decIdx (d.setWidth 16)
      decIdx := n.decIdx + 1 }
  else { n with lastEdgeTime := add32 n.lastEdgeTime d }

section AfterPulse
variable {p : Params} {n : TxNode} {d : Time}

@[simp] theorem afterPulse_lastEdgeTime : (afterPulse p n d).lastEdgeTime = add32 n.lastEdgeTime d := by
  unfold afterPulse; split <;> rfl

@[simp] theorem afterPulse_srcLink : (afterPulse p n d).srcLink = n.srcLink := by
  unfold afterPulse; split <;> rfl

@[simp] theorem afterPulse_txBuf : (afterPulse p n d).txBuf = n.txBuf := by
  unfold afterPulse; split <;> rfl

theorem afterPulse_ch_of_lt (h : n.decIdx.toNat < p.nCh) :
    (afterPulse p n d).ch = writeElem n.ch n.decIdx (d.setWidth 16) := by
  rw [afterPulse, if_pos h]

theorem afterPulse_of_le (h : p.nCh ≤ n.decIdx.toNat) :
    afterPulse p n d = { n with lastEdgeTime := add32 n.lastEdgeTime d } :=
  if_neg (not_lt.mpr h)

theorem afterPulse_ch_get_ne {k : Nat} (h : k ≠ n.decIdx.toNat) : (afterPulse p n d).ch[k]? = n.ch[k]? := by
  unfold afterPulse
  split
  · exact writeElem_get_ne h
  · rfl

theorem afterPulse_decIdx_toNat (hlegal : Legal p) (hle : n.decIdx.toNat ≤ p.nCh) :
    (afterPulse p n d).decIdx.toNat = min (n.decIdx.toNat + 1) p.nCh := by
  by_cases hidx : n.decIdx.toNat < p.nCh
  · rw [afterPulse, if_pos hidx, index_succ_toNat hlegal hidx, min_eq_left hidx]
  · rw [afterPulse_of_le (not_lt.mp hidx)]
    dsimp only
    omega

/-- R40(e) holds after the pulse: the value stored is at most `SYNC_THRESHOLD`. -/
theorem afterPulse_txInv (hlegal : Legal p) (hinv : TxInv p n) (hd : d.toNat ≤ p.syncThreshold) :
    TxInv p (afterPulse p n d) := by
  by_cases hidx : n.decIdx.toNat < p.nCh
  · obtain ⟨hch, hbuf, hle, hmost⟩ := txInv_iff.mp hinv
    refine txInv_iff.mpr ⟨?_, ?_, ?_, ?_⟩
    · rw [afterPulse_ch_of_lt hidx, writeElem_length, hch]
    · rw [afterPulse_txBuf, hbuf]
    · rw [afterPulse_decIdx_toNat hlegal hle]
      exact min_le_right _ _
    · have hvalue : (d.setWidth 16 : Channel).toNat ≤ max p.chReset p.syncThreshold :=
        (interval16_toNat hlegal hd).trans_le (hd.trans (le_max_right _ _))
      rw [afterPulse_ch_of_lt hidx]
      exact allAtMost_write hmost hvalue
  · rw [afterPulse_of_le (not_lt.mp hidx)]
    exact hinv

/-- `afterPulse` is what DEC_EDGE does at the time of such an edge. -/
theorem exec_decEdge_afterPulse {s : State} (hn : s.node = .tx n) (hlegal : Legal s.params) (hinv : TxInv s.params n)
    (hd : d.toNat ≤ s.params.syncThreshold) :
    exec (.decEdge (add32 n.lastEdgeTime d)) s = .next (s.putNode (.tx (afterPulse s.params n d)) []) := by
  have hpulse : (elapsed (add32 n.lastEdgeTime d) n.lastEdgeTime).toNat ≤ s.params.syncThreshold := by
    rwa [elapsed_add32]
  by_cases hidx : n.decIdx.toNat < s.params.nCh
  · rw [exec_decEdge_of_pulse hn hlegal hinv hpulse hidx, elapsed_add32, afterPulse, if_pos hidx]
  · rw [exec_decEdge_of_surplus hn hlegal hinv hpulse (not_lt.mp hidx), afterPulse_of_le (not_lt.mp hidx)]

end AfterPulse

/-- The registers after edges the intervals `ds` apart. -/
def afterPulses (p : Params) (n : TxNode) (ds : List Time) : TxNode := ds.foldl (afterPulse p) n

section AfterPulses
variable {p : Params} {n : TxNode} {ds : List Time}

@[simp] theorem afterPulses_nil : afterPulses p n [] = n := rfl

@[simp] theorem afterPulses_cons (d : Time) : afterPulses p n (d :: ds) = afterPulses p (afterPulse p n d) ds := rfl

theorem afterPulses_srcLink : (afterPulses p n ds).srcLink = n.srcLink := by
  induction ds generalizing n with
  | nil => rfl
  | cons d ds ih => rw [afterPulses_cons, ih, afterPulse_srcLink]

theorem afterPulses_txBuf : (afterPulses p n ds).txBuf = n.txBuf := by
  induction ds generalizing n with
  | nil => rfl
  | cons d ds ih => rw [afterPulses_cons, ih, afterPulse_txBuf]

/-- The index advances with every interval until it is `N_CH`. -/
theorem afterPulses_decIdx_toNat (hlegal : Legal p) (hle : n.decIdx.toNat ≤ p.nCh) :
    (afterPulses p n ds).decIdx.toNat = min (n.decIdx.toNat + ds.length) p.nCh := by
  induction ds generalizing n with
  | nil => exact (min_eq_left hle).symm
  | cons d ds ih =>
    have hnext := afterPulse_decIdx_toNat (d := d) hlegal hle
    rw [afterPulses_cons, List.length_cons, ih (by omega), hnext]
    omega

/-- Elements before the index, and elements the intervals do not reach, stay (R93). -/
theorem afterPulses_ch_get_of_not_reached (hlegal : Legal p) (hle : n.decIdx.toNat ≤ p.nCh) {k : Nat}
    (hk : k < n.decIdx.toNat ∨ n.decIdx.toNat + ds.length ≤ k) : (afterPulses p n ds).ch[k]? = n.ch[k]? := by
  induction ds generalizing n with
  | nil => rfl
  | cons d ds ih =>
    have hnext := afterPulse_decIdx_toNat (d := d) hlegal hle
    rw [List.length_cons] at hk
    rw [afterPulses_cons, ih (by omega) (by omega), afterPulse_ch_get_ne (by omega)]

/-- The `j`th interval is stored `j` places after the index, if that is below `N_CH`. -/
theorem afterPulses_ch_get (hlegal : Legal p) (hlen : n.ch.length = p.nCh) {j : Nat} {d : Time}
    (hj : ds[j]? = some d) (hidx : n.decIdx.toNat + j < p.nCh) :
    (afterPulses p n ds).ch[n.decIdx.toNat + j]? = some (d.setWidth 16) := by
  induction ds generalizing n j with
  | nil => cases hj
  | cons e ds ih =>
    have hlt : n.decIdx.toNat < p.nCh := by omega
    have hnext : (afterPulse p n e).decIdx.toNat = n.decIdx.toNat + 1 :=
      (afterPulse_decIdx_toNat hlegal hlt.le).trans (min_eq_left hlt)
    rw [afterPulses_cons]
    cases j with
    | zero =>
      obtain rfl : e = d := Option.some.inj hj
      rw [Nat.add_zero, afterPulses_ch_get_of_not_reached hlegal (by omega) (by omega), afterPulse_ch_of_lt hlt,
        writeElem_get (hlen ▸ hlt)]
    | succ j =>
      have hlen' : (afterPulse p n e).ch.length = p.nCh := by
        rw [afterPulse_ch_of_lt hlt, writeElem_length, hlen]
      rw [← Nat.succ_add_eq_add_succ, ← Nat.add_one, ← hnext]
      exact ih hlen' hj (by omega)

end AfterPulses

theorem execAll_cons_of_next {i : Instr} {is : List Instr} {s t : State} (h : exec i s = .next t) :
    execAll (i :: is) s = execAll is t := by
  rw [execAll, h]

@[simp] theorem edgesAt_cons (t : Time) (ts : List Time) : edgesAt (t :: ts) = .decEdge t :: edgesAt ts := rfl

/-- Edges of pulse intervals all complete, log nothing, and leave the registers of `afterPulses`. -/
theorem execAll_edgesAt_timesAfter {s : State} {n : TxNode} {ds : List Time} (hn : s.node = .tx n)
    (hlegal : Legal s.params) (hinv : TxInv s.params n) (hds : ∀ d ∈ ds, d.toNat ≤ s.params.syncThreshold) :
    execAll (edgesAt (timesAfter n.lastEdgeTime ds)) s = .next (s.putNode (.tx (afterPulses s.params n ds)) []) := by
  induction ds generalizing s n with
  | nil =>
    rw [afterPulses_nil, putNode_self hn]
    rfl
  | cons d ds ih =>
    obtain ⟨hd, hrest⟩ := List.forall_mem_cons.mp hds
    rw [timesAfter, edgesAt_cons, execAll_cons_of_next (exec_decEdge_afterPulse hn hlegal hinv hd),
      ← afterPulse_lastEdgeTime (p := s.params),
      ih (putNode_node _ _ _) hlegal (afterPulse_txInv hlegal hinv hd) hrest, putNode_putNode, putNode_params, List.append_nil, afterPulses_cons]

/-- The registers after a sync edge at `t` (R90). -/
def afterSync (t : Time) (n : TxNode) : TxNode := { n with lastEdgeTime := t, decIdx := 0, srcLink := .active }

section AfterSync
variable {n : TxNode} {t : Time}

@[simp] theorem afterSync_ch : (afterSync t n).ch = n.ch := rfl
@[simp] theorem afterSync_txBuf : (afterSync t n).txBuf = n.txBuf := rfl
@[simp] theorem afterSync_decIdx_toNat : (afterSync t n).decIdx.toNat = 0 := rfl
@[simp] theorem afterSync_lastEdgeTime : (afterSync t n).lastEdgeTime = t := rfl
@[simp] theorem afterSync_srcLink : (afterSync t n).srcLink = .active := rfl

theorem afterSync_txInv {p : Params} (hinv : TxInv p n) : TxInv p (afterSync t n) := by
  obtain ⟨hch, hbuf, -, hmost⟩ := txInv_iff.mp hinv
  exact txInv_iff.mpr ⟨hch, hbuf, Nat.zero_le _, hmost⟩

end AfterSync

/-- A sync edge at `t` and edges of pulse intervals after it all complete; only the sync edge may log a record. -/
theorem execAll_syncedEdges {s : State} {n : TxNode} {t : Time} {ds : List Time} (hn : s.node = .tx n)
    (hlegal : Legal s.params) (hinv : TxInv s.params n)
    (hgap : s.params.syncThreshold < (elapsed t n.lastEdgeTime).toNat)
    (hds : ∀ d ∈ ds, d.toNat ≤ s.params.syncThreshold) :
    execAll (edgesAt (t :: timesAfter t ds)) s =
      .next (s.putNode (.tx (afterPulses s.params (afterSync t n) ds)) (statusRecord t n.srcLink .active)) := by
  have hpulses := execAll_edgesAt_timesAfter (n := afterSync t n)
    (s := s.putNode (.tx (afterSync t n)) (statusRecord t n.srcLink .active))
    (putNode_node _ _ _) hlegal (afterSync_txInv hinv) hds
  rw [edgesAt_cons, execAll_cons_of_next (exec_decEdge_of_gap hn hlegal hinv hgap)]
  rwa [afterSync_lastEdgeTime, putNode_putNode, List.append_nil] at hpulses

/-- Settles O48: the sync edge puts the index at 0, and from there each interval goes to the element of its number. -/
theorem decodedFrameEqualsItsIntervals : Obligations.DecodedFrameEqualsItsIntervals := by
  intro s n t ds hn hlegal hinv hgap hds
  obtain ⟨hlen, -⟩ := txInv_iff.mp hinv
  have hle : (afterSync t n).decIdx.toNat ≤ s.params.nCh := Nat.zero_le _
  refine ⟨_, _, execAll_syncedEdges hn hlegal hinv hgap hds, putNode_node _ _ _, ?_, ?_, fun k d hk hd => ?_,
    fun k hk => ?_, ?_⟩
  · rw [afterPulses_decIdx_toNat hlegal hle, afterSync_decIdx_toNat, Nat.zero_add]
  · rw [afterPulses_srcLink, afterSync_srcLink]
  · have hget := afterPulses_ch_get (n := afterSync t n) hlegal hlen hd (by simpa using hk)
    rw [afterSync_decIdx_toNat, Nat.zero_add] at hget
    rw [hget, Option.map_some, interval16_toNat hlegal (hds d (List.mem_of_getElem? hd))]
  · rw [afterPulses_ch_get_of_not_reached hlegal hle (.inr (by simpa using hk)), afterSync_ch]
  · rw [afterPulses_txBuf, afterSync_txBuf]

end Sys2Proof.Proofs
end

section
/-! PROOFS. The source supervisor (spec/41_source_supervisor.md): the loss check, one load, the send. -/

namespace Sys2Proof.Proofs

open Sys2Proof.Machine Sys2Proof.Laws

section SourceOperands

theorem srcLinkChecked_of_exceeds {p : Params} {t lastEdge : Time} (h : p.srcLossThreshold < (elapsed t lastEdge).toNat)
    (old : LinkState) : srcLinkChecked p t lastEdge old = .lost :=
  if_pos (exceeds_iff.mpr h)

theorem srcLinkChecked_of_within {p : Params} {t lastEdge : Time}
    (h : (elapsed t lastEdge).toNat ≤ p.srcLossThreshold) (old : LinkState) : srcLinkChecked p t lastEdge old = old :=
  if_neg (mt exceeds_iff.mp (not_lt.mpr h))

theorem statusRecord_to_lost (t : Time) (old : LinkState) :
    statusRecord t old .lost = if old = .active then [.status t true] else [] := by
  cases old <;> rfl

/-- R53: the two bytes of a value by number, the low one first. -/
theorem le16_eq_ofNat (v : Channel) : le16 v = [BitVec.ofNat 8 v.toNat, BitVec.ofNat 8 (v.toNat / 256)] := by
  simp only [le16, BitVec.extractLsb', Nat.shiftRight_eq_div_pow, Nat.reducePow, Nat.div_one]

theorem payloadBytes_eq_ofNat (vs : List Channel) :
    payloadBytes vs = vs.flatMap (fun v => [BitVec.ofNat 8 v.toNat, BitVec.ofNat 8 (v.toNat / 256)]) := by
  rw [payloadBytes, funext le16_eq_ofNat]

end SourceOperands

section SourceOperations
variable {s : State} {n : TxNode} {t : Time}
  (hn : s.node = .tx n) (hlegal : Legal s.params) (hinv : TxInv s.params n)
include hn hlegal hinv

/-! ### The loss check (R100) -/

theorem exec_srcChk_eq : exec (.srcChk t) s = .next (s.putNode
    (.tx { n with srcLink := srcLinkChecked s.params t n.lastEdgeTime n.srcLink })
    (statusRecord t n.srcLink (srcLinkChecked s.params t n.lastEdgeTime n.srcLink))) :=
  takeTx_eq hn hlegal rfl hinv

theorem exec_srcChk_of_exceeds (hloss : s.params.srcLossThreshold < (elapsed t n.lastEdgeTime).toNat) :
    exec (.srcChk t) s =
      .next (s.putNode (.tx { n with srcLink := .lost }) (statusRecord t n.srcLink .lost)) := by
  rw [exec_srcChk_eq hn hlegal hinv, srcLinkChecked_of_exceeds hloss]

theorem exec_srcChk_of_within (hlive : (elapsed t n.lastEdgeTime).toNat ≤ s.params.srcLossThreshold) :
    exec (.srcChk t) s = .next s := by
  rw [exec_srcChk_eq hn hlegal hinv, srcLinkChecked_of_within hlive, statusRecord_self, putNode_self hn]

/-! ### One load (R101) -/

theorem exec_srcLd_of_readElem {k : Index} {v : Channel} (hk : k.toNat < s.params.nCh)
    (hv : readElem n.ch k = some v) :
    exec (.srcLd t k) s = .next (s.putNode (.tx { n with txBuf := writeElem n.txBuf k v }) []) := by
  have htake : exec (.srcLd t k) s = finish .tx s (srcLdRule k s.params n) :=
    takeTx_eq hn hlegal (decide_eq_true hk) hinv
  rw [htake, srcLdRule, hv, finish]

/-! ### The send (R102) -/

theorem exec_srcSend_eq : exec (.srcSend t) s = finish .tx s (srcSendRule t s.params n) :=
  takeTx_eq hn hlegal rfl hinv

theorem exec_srcSend_of_active (hlink : n.srcLink = .active) :
    exec (.srcSend t) s =
      .next (s.putNode (.tx n) [.send t s.params.peerAddr (payloadBytes n.txBuf)]) := by
  rw [exec_srcSend_eq hn hlegal hinv, srcSendRule, hlink, finish]

theorem exec_srcSend_of_lost (hlink : n.srcLink = .lost) : exec (.srcSend t) s = .next s := by
  rw [exec_srcSend_eq hn hlegal hinv, srcSendRule, hlink, finish, putNode_self hn]

end SourceOperations

/-- Settles O20: the two sides of R100's comparison, each with the whole state it answers. -/
theorem srcChkDeclaresLoss : Obligations.SrcChkDeclaresLoss := by
  refine ⟨⟨rfl, rfl, rfl⟩, fun s n t hn hlegal hinv => ?_⟩
  by_cases hloss : s.params.srcLossThreshold < (t - n.lastEdgeTime).toNat
  · rw [if_pos hloss, exec_srcChk_of_exceeds hn hlegal hinv hloss, statusRecord_to_lost, State.putNode]
  · rw [if_neg hloss, exec_srcChk_of_within hn hlegal hinv (not_lt.mp hloss)]

/-- Settles O21: an index below `N_CH` is one of `ch`, whose length the invariants give. -/
theorem srcLdCopiesOneElement : Obligations.SrcLdCopiesOneElement := by
  refine ⟨⟨rfl, rfl, rfl⟩, fun s n t k hn hlegal hinv hk => ?_⟩
  obtain ⟨hlen, -⟩ := txInv_iff.mp hinv
  have hread := readElem_of_lt (xs := n.ch) (hlen.symm ▸ hk)
  exact ⟨_, hread, by rw [exec_srcLd_of_readElem hn hlegal hinv hk hread, putNode_nil, writeElem]⟩

/-- Settles O22: the two values of `src_link`, each with the whole state it answers. -/
theorem srcSendTransmitsWhenActive : Obligations.SrcSendTransmitsWhenActive := by
  refine ⟨⟨rfl, rfl, rfl⟩, fun s n t hn hlegal hinv => ?_⟩
  cases hlink : n.srcLink with
  | active => rw [if_pos rfl, exec_srcSend_of_active hn hlegal hinv hlink, payloadBytes_eq_ofNat, State.putNode, ← hn]
  | lost => rw [if_neg (by decide), exec_srcSend_of_lost hn hlegal hinv hlink]

end Sys2Proof.Proofs
end

section
/-! PROOFS. The sink supervisor (spec/42_sink_supervisor.md): the payload header, one store, the tick, and the
supervisor's independence of the encoder. -/

namespace Sys2Proof.Proofs

open Sys2Proof.Machine Sys2Proof.Laws

section SinkOperands

theorem snkLinkTicked_of_exceeds {p : Params} {t lastRx : Time} (h : p.snkLossThreshold < (elapsed t lastRx).toNat) :
    snkLinkTicked p t lastRx = .lost :=
  if_pos (exceeds_iff.mpr h)

theorem snkLinkTicked_of_within {p : Params} {t lastRx : Time} (h : (elapsed t lastRx).toNat ≤ p.snkLossThreshold) :
    snkLinkTicked p t lastRx = .active :=
  if_neg (mt exceeds_iff.mp (not_lt.mpr h))

/-- `clamp_toNat` branch by branch; a legal band is in order, so no two of them overlap. -/
theorem clamp_toNat_eq_ite {p : Params} (hlegal : Legal p) (v : Channel) :
    (clamp p v).toNat =
      if v.toNat < p.chMin then p.chMin else if p.chMax < v.toNat then p.chMax else v.toNat := by
  obtain ⟨hband, hfit⟩ := channelBand_of_legal hlegal
  rw [clamp_toNat hband hfit]
  split_ifs <;> omega

end SinkOperands

section SinkOperations
variable {s : State} {n : RxNode} {t : Time}
  (hn : s.node = .rx n) (hlegal : Legal s.params) (hinv : RxInv s.params n)
include hn hlegal hinv

/-! ### The payload header (R110) -/

theorem exec_rxHdr_eq {len : BitVec 16} : exec (.rxHdr t len) s = finish .rx s (rxHdrRule t len s.params n) :=
  takeRx_eq hn hlegal rfl hinv

theorem exec_rxHdr_of_payloadLen {len : BitVec 16} (hlen : len.toNat = s.params.payloadLen) :
    exec (.rxHdr t len) s = .next (s.putNode (.rx { n with lastRxTime := t }) []) := by
  rw [exec_rxHdr_eq hn hlegal hinv, rxHdrRule, if_pos hlen, finish]

theorem exec_rxHdr_of_ne_payloadLen {len : BitVec 16} (hlen : len.toNat ≠ s.params.payloadLen) :
    exec (.rxHdr t len) s = .next s := by
  rw [exec_rxHdr_eq hn hlegal hinv, rxHdrRule, if_neg hlen, finish, putNode_self hn]

/-! ### One store (R111) -/

theorem exec_rxSt_eq {k : Index} {raw : Channel} (hk : k.toNat < s.params.nCh) :
    exec (.rxSt t k raw) s =
      .next (s.putNode (.rx { n with ch := writeElem n.ch k (clamp s.params raw) }) []) :=
  takeRx_eq hn hlegal (decide_eq_true hk) hinv

/-! ### The tick (R112) -/

theorem exec_snkTick_eq : exec (.snkTick t) s = .next (s.putNode
    (.rx { n with snkLink := snkLinkTicked s.params t n.lastRxTime })
    (statusRecord t n.snkLink (snkLinkTicked s.params t n.lastRxTime))) :=
  takeRx_eq hn hlegal rfl hinv

theorem exec_snkTick_of_exceeds (hloss : s.params.snkLossThreshold < (elapsed t n.lastRxTime).toNat) :
    exec (.snkTick t) s =
      .next (s.putNode (.rx { n with snkLink := .lost }) (statusRecord t n.snkLink .lost)) := by
  rw [exec_snkTick_eq hn hlegal hinv, snkLinkTicked_of_exceeds hloss]

theorem exec_snkTick_of_within (hlive : (elapsed t n.lastRxTime).toNat ≤ s.params.snkLossThreshold) :
    exec (.snkTick t) s =
      .next (s.putNode (.rx { n with snkLink := .active }) (statusRecord t n.snkLink .active)) := by
  rw [exec_snkTick_eq hn hlegal hinv, snkLinkTicked_of_within hlive]

end SinkOperations

/-- Settles O23: a length is `PAYLOAD_LEN` or it is not. -/
theorem rxHdrRecordsValidPayload : Obligations.RxHdrRecordsValidPayload := by
  refine ⟨⟨rfl, rfl, rfl⟩, fun s n t len hn hlegal hinv => ?_⟩
  by_cases hlen : len.toNat = 2 * s.params.nCh
  · rw [if_pos hlen, exec_rxHdr_of_payloadLen hn hlegal hinv hlen, putNode_nil]
  · rw [if_neg hlen, exec_rxHdr_of_ne_payloadLen hn hlegal hinv hlen]

/-- Settles O24: the value stored is the clamped one. -/
theorem rxStStoresClamped : Obligations.RxStStoresClamped := by
  refine ⟨⟨rfl, rfl, rfl⟩, fun s n t k raw hn hlegal hinv hk => ?_⟩
  exact ⟨clamp s.params raw, clamp_toNat_eq_ite hlegal raw,
    by rw [exec_rxSt_eq hn hlegal hinv hk, putNode_nil, writeElem]⟩

/-- Settles O25: the two sides of R112's comparison, each with the whole state it answers. -/
theorem snkTickRecomputesLink : Obligations.SnkTickRecomputesLink := by
  refine ⟨⟨rfl, rfl, rfl⟩, fun s n t hn hlegal hinv => ?_⟩
  by_cases hloss : s.params.snkLossThreshold < (t - n.lastRxTime).toNat
  · rw [if_pos hloss, exec_snkTick_of_exceeds hn hlegal hinv hloss, statusRecord_to_lost, State.putNode]
  · rw [if_neg hloss, exec_snkTick_of_within hn hlegal hinv (not_lt.mp hloss), statusRecord_to_active, State.putNode]

/-! ### Independence of the encoder (R113, R114) -/

/-- The rule each operation follows on an RX node; `exec_rx_next` ties it to `exec`. -/
def rxRule : Instr → Params → RxNode → RuleAnswer RxNode
  | .rxHdr t len => rxHdrRule t len
  | .rxSt _ k raw => rxStRule k raw
  | .snkTick t => snkTickRule t
  | .encFire t => encFireRule t
  | .reset t => fun p _ => .ok (rxReset p t, resetRecords .rx t)
  | i => fun _ _ => .error (.illegalWord (encode i) .wrongRole)

theorem takeRx_next_rule {i : Instr} {s t : State} {n m : RxNode} {rule : Params → RxNode → RuleAnswer RxNode}
    (h : takeRx i s rule = .next t) (hn : s.node = .rx n) (hm : t.node = .rx m) :
    ∃ out, rule s.params n = .ok (m, out) ∧ t.log = s.log ++ out := by
  obtain ⟨n', m', out, hn', -, -, -, hrule, rfl⟩ := takeRx_next h
  obtain rfl := Node.rx.inj (hn.symm.trans hn')
  obtain rfl := Node.rx.inj hm
  exact ⟨out, hrule, rfl⟩

theorem takeTx_ne_next_of_rx {i : Instr} {s t : State} {n : RxNode} {rule : Params → TxNode → RuleAnswer TxNode}
    (hn : s.node = .rx n) : takeTx i s rule ≠ .next t := by
  intro h
  obtain ⟨n', m, out, hn', -⟩ := takeTx_next h
  cases hn.symm.trans hn'

/-- On an RX node, the registers and the records of a next state are those of the operation's rule. -/
theorem exec_rx_next {i : Instr} {s t : State} {n m : RxNode} (h : exec i s = .next t) (hn : s.node = .rx n)
    (hm : t.node = .rx m) : ∃ out, rxRule i s.params n = .ok (m, out) ∧ t.log = s.log ++ out := by
  cases i with
  | decEdge t0 => exact absurd h (takeTx_ne_next_of_rx hn)
  | srcChk t0 => exact absurd h (takeTx_ne_next_of_rx hn)
  | srcLd t0 k => exact absurd h (takeTx_ne_next_of_rx hn)
  | srcSend t0 => exact absurd h (takeTx_ne_next_of_rx hn)
  | rxHdr t0 len => exact takeRx_next_rule h hn hm
  | rxSt t0 k raw => exact takeRx_next_rule h hn hm
  | snkTick t0 => exact takeRx_next_rule h hn hm
  | encFire t0 => exact takeRx_next_rule h hn hm
  | reset t0 =>
    obtain ⟨-, rfl⟩ := execReset_next h
    have hrole : s.role = .rx := by rw [State.role, hn, role_rx]
    rw [hrole] at hm ⊢
    obtain rfl := Node.rx.inj hm
    exact ⟨_, rfl, rfl⟩

/-- The node with other values in the sink supervisor's registers. -/
def withSink (lastRx : Time) (link : LinkState) (n : RxNode) : RxNode :=
  { n with lastRxTime := lastRx, snkLink := link }

/-- What the sink supervisor reads and writes: `ch` and its own registers. -/
def sinkView (n : RxNode) : List Channel × Time × LinkState := (n.ch, n.lastRxTime, n.snkLink)

theorem sinkView_eq_iff {n1 n2 : RxNode} :
    sinkView n1 = sinkView n2 ↔ n1.ch = n2.ch ∧ n1.lastRxTime = n2.lastRxTime ∧ n1.snkLink = n2.snkLink := by
  simp only [sinkView, Prod.mk.injEq]

section Encoder
variable {p : Params} {n : RxNode} {lastRx : Time} {link : LinkState}

/-- R113: no branch of the encoder reads or writes a register of the sink supervisor. -/
theorem encoderBranch_withSink :
    encoderBranch p (withSink lastRx link n) = (encoderBranch p n).map (Prod.map (withSink lastRx link) id) := by
  unfold encoderBranch
  cases hstate : n.encState with
  | pulseHigh =>
    simp only [withSink, hstate, Option.map_map]
    rfl
  | pulseLowChannel =>
    simp only [withSink, hstate]
    split_ifs <;> rfl
  | pulseLowSync =>
    simp only [withSink, hstate]
    rfl
  | frameGap =>
    simp only [withSink, hstate]
    rfl

theorem encFireRule_withSink {t : Time} :
    encFireRule t p (withSink lastRx link n) = (encFireRule t p n).map (Prod.map (withSink lastRx link) id) := by
  have hdeadline : (withSink lastRx link n).tmrDeadline = n.tmrDeadline := rfl
  unfold encFireRule
  rw [encoderBranch_withSink, hdeadline]
  split_ifs
  · cases encoderBranch p n <;> rfl
  · rfl

/-- A store reads no register of the sink supervisor either. -/
theorem rxStRule_withSink {k : Index} {raw : Channel} :
    rxStRule k raw p (withSink lastRx link n) = (rxStRule k raw p n).map (Prod.map (withSink lastRx link) id) := rfl

end Encoder

theorem rxRule_withSink {i : Instr} (hi : (∃ t, i = .encFire t) ∨ ∃ t k raw, i = .rxSt t k raw) {p : Params}
    {n : RxNode} {lastRx : Time} {link : LinkState} :
    rxRule i p (withSink lastRx link n) = (rxRule i p n).map (Prod.map (withSink lastRx link) id) := by
  obtain ⟨t, rfl⟩ | ⟨t, k, raw, rfl⟩ := hi
  · exact encFireRule_withSink
  · exact rxStRule_withSink

/-- R114: what an operation other than ENC_FIRE answers, as far as the sink supervisor sees it, is decided by what the
sink supervisor sees. -/
theorem rxRule_sinkView {i : Instr} (hi : ∀ t, i ≠ .encFire t) {p : Params} {n1 n2 : RxNode}
    (hview : sinkView n1 = sinkView n2) :
    (rxRule i p n1).map (Prod.map sinkView id) = (rxRule i p n2).map (Prod.map sinkView id) := by
  obtain ⟨hch, hlast, hlink⟩ := sinkView_eq_iff.mp hview
  cases i with
  | decEdge t => rfl
  | srcChk t => rfl
  | srcLd t k => rfl
  | srcSend t => rfl
  | rxHdr t len =>
    simp only [rxRule, rxHdrRule]
    split_ifs <;> simp [Except.map, sinkView, hch, hlast, hlink]
  | rxSt t k raw => simp [rxRule, rxStRule, Except.map, sinkView, hch, hlast, hlink]
  | snkTick t => simp [rxRule, snkTickRule, Except.map, sinkView, hch, hlast, hlink]
  | encFire t => exact absurd rfl (hi t)
  | reset t => rfl

/-- Settles O39: both runs are their rule's, which commutes with a change of the sink supervisor's registers (R113) and
is decided by what the sink supervisor sees (R114). -/
theorem encoderAndSinkSupervisorAreIndependent : Obligations.EncoderAndSinkSupervisorAreIndependent := by
  intro i s1 s2 t1 t2 n1 n2 m1 m2 hparams hn1 hn2 hm1 hm2 h1 h2
  obtain ⟨out1, hrule1, hlog1⟩ := exec_rx_next h1 hn1 hm1
  obtain ⟨out2, hrule2, hlog2⟩ := exec_rx_next h2 hn2 hm2
  rw [← hparams] at hrule2
  refine ⟨fun hi hdiffer => ?_, fun hi hch hlast hlink => ?_⟩
  · have hcommute := rxRule_withSink hi (p := s1.params) (n := n1) (lastRx := n2.lastRxTime) (link := n2.snkLink)
    rw [withSink, ← hdiffer, hrule1, hrule2] at hcommute
    obtain ⟨hm, rfl⟩ := Prod.mk.inj (Except.ok.inj hcommute)
    exact ⟨hm, out2, hlog1, hlog2⟩
  · have hsame := rxRule_sinkView hi (p := s1.params) (sinkView_eq_iff.mpr ⟨hch, hlast, hlink⟩)
    rw [hrule1, hrule2] at hsame
    obtain ⟨hview, rfl⟩ := Prod.mk.inj (Except.ok.inj hsame)
    obtain ⟨hch', hlast', hlink'⟩ := sinkView_eq_iff.mp hview
    exact ⟨hch', hlast', hlink', out1, hlog1, hlog2⟩

end Sys2Proof.Proofs
end

section
/-! PROOFS. The PPM encoder (spec/43_encoder.md section 1): the deadline, the dispatch and the five branches. -/

namespace Sys2Proof.Proofs

open Sys2Proof.Machine Sys2Proof.Laws

section EncoderOperands
variable {p : Params} {n : RxNode}

theorem satsub_eq_ofNat (a b : Time) : satsub a b = BitVec.ofNat 32 (a.toNat - b.toNat) := by
  rw [← satsub_toNat, BitVec.ofNat_toNat, BitVec.setWidth_eq]

theorem frameBudget_of_legal (h : Legal p) : p.nCh * p.chMax + p.pulseWidth ≤ p.framePeriod := by
  obtain ⟨-, -, hbudget, -⟩ := legal_iff.mp h
  exact hbudget

theorem framePeriod_lt_of_legal (h : Legal p) : p.framePeriod < 2 ^ 31 := by
  obtain ⟨-, -, -, -, -, hperiod, -⟩ := legal_iff.mp h
  exact hperiod

theorem micros_pulseWidth_toNat (h : Legal p) : (micros p.pulseWidth).toNat = p.pulseWidth := by
  have hbudget := frameBudget_of_legal h
  have hperiod := framePeriod_lt_of_legal h
  exact micros_toNat (by omega)

theorem micros_framePeriod_toNat (h : Legal p) : (micros p.framePeriod).toNat = p.framePeriod :=
  micros_toNat ((framePeriod_lt_of_legal h).trans (by norm_num))

theorem phaseInv_of_rxInv (h : RxInv p n) : PhaseInv p n := by
  obtain ⟨-, -, -, hphase, -⟩ := rxInv_iff.mp h
  exact hphase

theorem encSum_le_of_rxInv (h : RxInv p n) : n.encSum.toNat ≤ n.encIdx.toNat * p.chMax := by
  obtain ⟨-, -, -, -, -, hsum⟩ := rxInv_iff.mp h
  exact hsum

/-- R121: in PULSE_HIGH there is a channel to end, and R9(b) keeps it at least as long as its pulse. -/
theorem readElem_of_pulseHigh (hlegal : Legal p) (hinv : RxInv p n) (hstate : n.encState = .pulseHigh) :
    ∃ v, readElem n.ch n.encIdx = some v ∧ p.pulseWidth ≤ v.toNat ∧ v.toNat ≤ p.chMax := by
  obtain ⟨hlen, hmin, hmax, ⟨-, hhigh, -⟩, -⟩ := rxInv_iff.mp hinv
  obtain ⟨-, ⟨hpulse, -⟩, -⟩ := legal_iff.mp hlegal
  have hread := readElem_of_lt (hlen ▸ hhigh hstate)
  exact ⟨_, hread, hpulse.trans (le_readElem hmin hread), readElem_le hmax hread⟩

/-- R40(d) with the frame budget of R9(c): the sum has room for one more channel, so it does not wrap. -/
theorem encSum_add_toNat (hlegal : Legal p) (hinv : RxInv p n) (hidx : n.encIdx.toNat < p.nCh) {v : Channel}
    (hv : v.toNat ≤ p.chMax) : (n.encSum + zext32 v).toNat = n.encSum.toNat + v.toNat := by
  have hsum := encSum_le_of_rxInv hinv
  have hbudget := frameBudget_of_legal hlegal
  have hperiod := framePeriod_lt_of_legal hlegal
  have hroom : n.encIdx.toNat * p.chMax + p.chMax ≤ p.nCh * p.chMax := by
    rw [← Nat.succ_mul]
    exact Nat.mul_le_mul_right _ hidx
  rw [add_toNat_of_lt (by rw [zext32_toNat]; omega), zext32_toNat]

/-- R124: the channels and the marker pulse fit the frame period, so the gap does not saturate. -/
theorem encSum_add_pulseWidth_le (hlegal : Legal p) (hinv : RxInv p n) :
    n.encSum.toNat + p.pulseWidth ≤ p.framePeriod := by
  obtain ⟨hidx, -⟩ := phaseInv_of_rxInv hinv
  calc n.encSum.toNat + p.pulseWidth
      ≤ n.encIdx.toNat * p.chMax + p.pulseWidth := Nat.add_le_add_right (encSum_le_of_rxInv hinv) _
    _ ≤ p.nCh * p.chMax + p.pulseWidth := Nat.add_le_add_right (Nat.mul_le_mul_right _ hidx) _
    _ ≤ p.framePeriod := frameBudget_of_legal hlegal

theorem lowPeriod_eq_ofNat (hlegal : Legal p) (v : Channel) :
    satsub (zext32 v) (micros p.pulseWidth) = BitVec.ofNat 32 (v.toNat - p.pulseWidth) := by
  rw [satsub_eq_ofNat, zext32_toNat, micros_pulseWidth_toNat hlegal]

theorem frameGap_eq_ofNat (hlegal : Legal p) (hinv : RxInv p n) :
    satsub (micros p.framePeriod) (n.encSum + micros p.pulseWidth) =
      BitVec.ofNat 32 (p.framePeriod - (n.encSum.toNat + p.pulseWidth)) := by
  have hfits := encSum_add_pulseWidth_le hlegal hinv
  have hperiod := framePeriod_lt_of_legal hlegal
  have hpulse := micros_pulseWidth_toNat hlegal
  rw [satsub_eq_ofNat, micros_framePeriod_toNat hlegal, add_toNat_of_lt (by omega), hpulse]

end EncoderOperands

/-! ### The dispatch (R120) -/

section Dispatch
variable {p : Params} {n : RxNode}

theorem encoderBranch_of_pulseHigh (h : n.encState = .pulseHigh) {v : Channel} (hv : readElem n.ch n.encIdx = some v) :
    encoderBranch p n = some (endChannelPulse p v n) := by
  simp only [encoderBranch, h, hv, Option.map_some]

theorem encoderBranch_of_pulseLowChannel_lt (h : n.encState = .pulseLowChannel) (hidx : n.encIdx.toNat < p.nCh) :
    encoderBranch p n = some (startNextPulse p n) := by
  simp only [encoderBranch, h, if_pos hidx]

theorem encoderBranch_of_pulseLowChannel_eq (h : n.encState = .pulseLowChannel) (hidx : n.encIdx.toNat = p.nCh) :
    encoderBranch p n = some (startMarkerPulse p n) := by
  simp only [encoderBranch, h, if_neg hidx.not_lt, if_pos hidx]

theorem encoderBranch_of_pulseLowSync (h : n.encState = .pulseLowSync) :
    encoderBranch p n = some (startFrameGap p n) := by
  simp only [encoderBranch, h]

theorem encoderBranch_of_frameGap (h : n.encState = .frameGap) : encoderBranch p n = some (startFrame p n) := by
  simp only [encoderBranch, h]

/-- R113: no branch writes `ch` or a register of the sink supervisor. -/
theorem encoderBranch_sinkView {seg : Segment} (h : encoderBranch p n = some seg) : sinkView seg.1 = sinkView n := by
  obtain ⟨-, v, -, rfl⟩ | ⟨-, -, rfl⟩ | ⟨-, -, rfl⟩ | ⟨-, rfl⟩ | ⟨-, rfl⟩ := encoderBranch_some h <;> rfl

end Dispatch

section OneFire
variable {s : State} {n : RxNode} {t : Time}
  (hn : s.node = .rx n) (hlegal : Legal s.params) (hinv : RxInv s.params n)
include hn hlegal hinv

theorem exec_encFire_eq : exec (.encFire t) s = finish .rx s (encFireRule t s.params n) :=
  takeRx_eq hn hlegal rfl hinv

theorem exec_encFire_of_ne_deadline (ht : t ≠ n.tmrDeadline) : exec (.encFire t) s = .refused .timerExact := by
  rw [exec_encFire_eq hn hlegal hinv, encFireRule, if_neg ht, finish]

theorem exec_encFire_of_branch {m : RxNode} {d : Time} (hbranch : encoderBranch s.params n = some (m, d)) :
    exec (.encFire n.tmrDeadline) s = .next
      (s.putNode (.rx { m with tmrDeadline := n.tmrDeadline + d }) [.ppm n.tmrDeadline m.ppmOut]) := by
  rw [exec_encFire_eq hn hlegal hinv, encFireRule, if_pos rfl, hbranch, finish, add32]

end OneFire

/-- Settles O26: away from the deadline the rule refuses; at it the invariants leave exactly one branch. -/
theorem encFireDispatchesAtTheDeadline : Obligations.EncFireDispatchesAtTheDeadline := by
  refine ⟨⟨rfl, rfl, rfl⟩, fun s n t hn hlegal hinv => ⟨exec_encFire_of_ne_deadline hn hlegal hinv, ?_⟩⟩
  rintro rfl
  obtain ⟨⟨m, d⟩, hbranch⟩ := Option.isSome_iff_exists.mp (encoderBranch_isSome hinv)
  have chosen {seg : Segment} (h : encoderBranch s.params n = some seg) : (m, d) = seg :=
    Option.some.inj (hbranch.symm.trans h)
  refine ⟨m, d, exec_encFire_of_branch hn hlegal hinv hbranch, fun hstate => ?_,
    fun hstate hidx => chosen (encoderBranch_of_pulseLowChannel_lt hstate hidx), fun hstate hidx => ?_,
    fun hstate => chosen (encoderBranch_of_pulseLowSync hstate),
    fun hstate => chosen (encoderBranch_of_frameGap hstate),
    sinkView_eq_iff.mp (encoderBranch_sinkView hbranch)⟩
  · obtain ⟨v, hread, -⟩ := readElem_of_pulseHigh hlegal hinv hstate
    exact ⟨v, hread, chosen (encoderBranch_of_pulseHigh hstate hread)⟩
  · obtain ⟨hle, -⟩ := phaseInv_of_rxInv hinv
    exact chosen (encoderBranch_of_pulseLowChannel_eq hstate (hle.antisymm (not_lt.mp hidx)))

/-! ### The branches (R121 to R125) -/

/-- Settles O27: the channel read is in the band, so neither its low period nor the sum leaves its range. -/
theorem encFireEndsChannelPulse : Obligations.EncFireEndsChannelPulse := by
  intro s n hn hlegal hinv hstate
  obtain ⟨v, hread, hpulse, hmax⟩ := readElem_of_pulseHigh hlegal hinv hstate
  obtain ⟨-, hhigh, -⟩ := phaseInv_of_rxInv hinv
  have hidx := hhigh hstate
  refine ⟨v, hread, hpulse, encSum_add_toNat hlegal hinv hidx hmax, index_succ_toNat hlegal hidx, ?_⟩
  rw [← lowPeriod_eq_ofNat hlegal]
  exact exec_encFire_of_branch hn hlegal hinv (encoderBranch_of_pulseHigh hstate hread)

/-- Settles O28: the branch of R122. -/
theorem encFireStartsNextPulse : Obligations.EncFireStartsNextPulse := by
  intro s n hn hlegal hinv hstate hidx
  exact exec_encFire_of_branch hn hlegal hinv (encoderBranch_of_pulseLowChannel_lt hstate hidx)

/-- Settles O29: the branch of R123. -/
theorem encFireStartsMarkerPulse : Obligations.EncFireStartsMarkerPulse := by
  intro s n hn hlegal hinv hstate hidx
  exact exec_encFire_of_branch hn hlegal hinv (encoderBranch_of_pulseLowChannel_eq hstate hidx)

/-- Settles O30: the branch of R124, whose gap the frame budget keeps from saturating. -/
theorem encFireStartsFrameGap : Obligations.EncFireStartsFrameGap := by
  intro s n hn hlegal hinv hstate
  refine ⟨encSum_add_pulseWidth_le hlegal hinv, ?_⟩
  rw [← frameGap_eq_ofNat hlegal hinv]
  exact exec_encFire_of_branch hn hlegal hinv (encoderBranch_of_pulseLowSync hstate)

/-- Settles O31: the branch of R125, with the bookkeeping R40(b) has at 0 in the gap. -/
theorem encFireStartsFrame : Obligations.EncFireStartsFrame := by
  intro s n hn hlegal hinv hstate
  obtain ⟨-, -, -, -, hgap⟩ := phaseInv_of_rxInv hinv
  exact ⟨hgap hstate, exec_encFire_of_branch hn hlegal hinv (encoderBranch_of_frameGap hstate)⟩

end Sys2Proof.Proofs
end

section
/-! PROOFS. RESET, and what no operation writes (spec/44_system.md R135, R137). -/

namespace Sys2Proof.Proofs

open Sys2Proof.Machine Sys2Proof.Laws

/-! ### What every operation leaves alone (R137) -/

/-- `t` is `s` up to the registers of its node, which keep their role, and records added to the log. -/
def OnlyNodeChanged (s t : State) : Prop :=
  ∃ n out, n.role = s.role ∧ t = s.putNode n out

theorem takeTx_onlyNodeChanged {i : Instr} {s t : State} {rule : Params → TxNode → RuleAnswer TxNode}
    (h : takeTx i s rule = .next t) : OnlyNodeChanged s t := by
  obtain ⟨n, m, out, hn, -, -, -, -, rfl⟩ := takeTx_next h
  exact ⟨.tx m, out, by rw [State.role, hn, role_tx, role_tx], rfl⟩

theorem takeRx_onlyNodeChanged {i : Instr} {s t : State} {rule : Params → RxNode → RuleAnswer RxNode}
    (h : takeRx i s rule = .next t) : OnlyNodeChanged s t := by
  obtain ⟨n, m, out, hn, -, -, -, -, rfl⟩ := takeRx_next h
  exact ⟨.rx m, out, by rw [State.role, hn, role_rx, role_rx], rfl⟩

theorem execReset_onlyNodeChanged {s s' : State} {t : Time} (h : execReset t s = .next s') :
    OnlyNodeChanged s s' := by
  obtain ⟨-, rfl⟩ := execReset_next h
  exact ⟨_, _, role_nodeReset s.params s.role t, rfl⟩

theorem exec_onlyNodeChanged {i : Instr} {s t : State} (h : exec i s = .next t) : OnlyNodeChanged s t := by
  cases i with
  | decEdge t0 => exact takeTx_onlyNodeChanged h
  | srcChk t0 => exact takeTx_onlyNodeChanged h
  | srcLd t0 k => exact takeTx_onlyNodeChanged h
  | srcSend t0 => exact takeTx_onlyNodeChanged h
  | rxHdr t0 len => exact takeRx_onlyNodeChanged h
  | rxSt t0 k raw => exact takeRx_onlyNodeChanged h
  | snkTick t0 => exact takeRx_onlyNodeChanged h
  | encFire t0 => exact takeRx_onlyNodeChanged h
  | reset t0 => exact execReset_onlyNodeChanged h

/-- Settles O35: every operation ends by putting a node of the same role back, which touches no other field but the
log. -/
theorem configurationIsNeverWritten : Obligations.ConfigurationIsNeverWritten := by
  intro i s t h
  obtain ⟨n, out, hrole, rfl⟩ := exec_onlyNodeChanged h
  exact ⟨putNode_params s n out, hrole, putNode_monitor s n out, putNode_pending s n out⟩

/-! ### RESET (R135) -/

section Reset
variable {s : State} (hlegal : Legal s.params) (t : Time)
include hlegal

theorem exec_reset_tx {n : TxNode} (hn : s.node = .tx n) :
    exec (.reset t) s = .next (s.putNode (.tx (txReset s.params t)) (resetRecords .tx t)) := by
  have hrole : s.role = .tx := by rw [State.role, hn, role_tx]
  have hreset := execReset_of_legal hlegal t
  rwa [hrole] at hreset

theorem exec_reset_rx {n : RxNode} (hn : s.node = .rx n) :
    exec (.reset t) s = .next (s.putNode (.rx (rxReset s.params t)) (resetRecords .rx t)) := by
  have hrole : s.role = .rx := by rw [State.role, hn, role_rx]
  have hreset := execReset_of_legal hlegal t
  rwa [hrole] at hreset

end Reset

/-- Settles O32: RESET asks only for a legal configuration, and the registers it puts back are R39's for the role. -/
theorem resetWritesEveryRegister : Obligations.ResetWritesEveryRegister :=
  ⟨⟨rfl, rfl, rfl⟩, fun _ t hlegal => ⟨fun _ => exec_reset_tx hlegal t, fun _ => exec_reset_rx hlegal t⟩⟩

end Sys2Proof.Proofs
end

section
/-! PROOFS. Event words there and back (spec/30_encoding.md R70 to R74). -/

namespace Sys2Proof.Proofs

open Sys2Proof.Machine Sys2Proof.Laws

section RoundTrip

/-- R72: the operands of an operation are the fields it is built from. -/
theorem build_operands (i : Instr) : i.opcode.build i.aOperand i.vOperand i.time = i := by
  cases i <;> rfl

/-- R71: an operation is written with zero in the fields its format reserves. -/
theorem reservedOk_operands (i : Instr) : i.opcode.format.reservedOk i.aOperand i.vOperand = true := by
  cases i <;> rfl

theorem wellFormed_iff {nCh : Nat} {i : Instr} :
    i.WellFormed nCh ↔ (i.opcode.format = .i ∨ i.opcode.format = .s → i.aOperand.toNat < nCh) := by
  conv_lhs => rw [← build_operands i]
  exact wellFormed_build_iff _ _ _ _ _

/-- Where the reserved fields are zero, an operation is written back with the fields it was built from. -/
theorem encode_build {o : Opcode} {a : BitVec 8} {v : BitVec 16} (t : Time) (h : o.format.reservedOk a v = true) :
    encode (o.build a v t) = assembleWord o.code a v t := by
  cases o <;> simp_all [Format.reservedOk, Opcode.format, Opcode.build, encode, Instr.opcode, Instr.aOperand,
    Instr.vOperand, Instr.time]

end RoundTrip

/-- Settles O1: the fields of the word are the operation's operands, which meet all that the decoder checks. -/
theorem decodeOfEncodeIsTheOperation : Obligations.DecodeOfEncodeIsTheOperation := by
  intro nCh i hwf
  refine decodeWord_eq_ok_iff.mpr ⟨i.opcode, ?_⟩
  rw [encode, opField_assemble, aField_assemble, vField_assemble, tField_assemble]
  exact ⟨rfl, reservedOk_operands i, wellFormed_iff.mp hwf, build_operands i⟩

/-- Settles O2: the operation is built from the word's own fields, and none of them is dropped. -/
theorem decodedWordIsTheEncoding : Obligations.DecodedWordIsTheEncoding := by
  intro nCh w i h
  obtain ⟨o, hcode, hreserved, hindex, rfl⟩ := decodeWord_eq_ok_iff.mp h
  refine ⟨?_, (wellFormed_build_iff _ _ _ _ _).mpr hindex⟩
  rw [encode_build _ hreserved, hcode, assemble_fields]

/-- Settles O7: each word's fields are numerals, so the decoder computes. -/
theorem sampleWordsDecode : Obligations.SampleWordsDecode :=
  ⟨rfl, rfl, rfl, rfl, rfl, rfl, rfl⟩

end Sys2Proof.Proofs
end

section
/-! PROOFS. Printed operations read back, and the role line (spec/30_encoding.md R76). -/

namespace Sys2Proof.Proofs

open Sys2Proof.Machine Sys2Proof.Laws

/-! ### Decimal numbers -/

section Numbers

theorem readDigits_append (base acc : Nat) (cs ds : List Char) :
    readDigits base acc (cs ++ ds) = (readDigits base acc cs).bind (fun v => readDigits base v ds) := by
  induction cs generalizing acc with
  | nil => rfl
  | cons c cs ih =>
    rw [List.cons_append, readDigits, readDigits]
    cases digitValue? base c with
    | none => rfl
    | some v => exact ih _

theorem digitValue_digitChar {d : Nat} (h : d < 10) : digitValue? 10 (digitChar d) = some d := by
  interval_cases d <;> rfl

theorem readDigits_digitChar {d : Nat} (h : d < 10) (acc : Nat) :
    readDigits 10 acc [digitChar d] = some (acc * 10 + d) := by
  simp only [readDigits, digitValue_digitChar h]

/-- The digits of a number that fits the fuel are read as that number. -/
theorem readDigits_decimalFuel {fuel n : Nat} (h : n < 10 ^ fuel) : readDigits 10 0 (decimalFuel fuel n) = some n := by
  induction fuel generalizing n with
  | zero =>
    obtain rfl : n = 0 := by simpa using h
    rfl
  | succ fuel ih =>
    rw [decimalFuel]
    split
    next hone => rw [readDigits_digitChar hone, Nat.zero_mul, Nat.zero_add]
    next hmore =>
      have hdigit : n % 10 < 10 := Nat.mod_lt _ (by norm_num)
      rw [readDigits_append, ih (by omega), Option.bind_some, readDigits_digitChar hdigit, Nat.mul_comm,
        Nat.div_add_mod]

/-- A character of a decimal number is a digit. -/
theorem mem_decimalFuel {fuel n : Nat} {c : Char} (h : c ∈ decimalFuel fuel n) : ∃ d < 10, c = digitChar d := by
  induction fuel generalizing n with
  | zero => cases h
  | succ fuel ih =>
    rw [decimalFuel] at h
    split at h
    next hone => exact ⟨n, hone, List.mem_singleton.mp h⟩
    next hmore =>
      obtain h | h := List.mem_append.mp h
      · exact ih h
      · exact ⟨n % 10, Nat.mod_lt _ (by norm_num), List.mem_singleton.mp h⟩

theorem decimal_ne_nil (n : Nat) : decimal n ≠ [] := by
  rw [decimal, decimalFuel]
  split <;> simp

/-- Without an `x` a number is decimal. -/
theorem readNumber_of_no_x {cs : List Char} (h : 'x' ∉ cs) : readNumber cs = readBase 10 cs := by
  unfold readNumber
  split
  next => simp at h
  next => rfl

theorem x_not_mem_decimal (n : Nat) : 'x' ∉ decimal n := by
  intro h
  obtain ⟨d, hd, hx⟩ := mem_decimalFuel h
  interval_cases d <;> revert hx <;> decide

theorem readNumber_decimal {n : Nat} (h : n < 10 ^ 10) : readNumber (decimal n) = some n := by
  rw [readNumber_of_no_x (x_not_mem_decimal n)]
  obtain ⟨c, cs, hcs⟩ := List.exists_cons_of_ne_nil (decimal_ne_nil n)
  rw [hcs, readBase, ← hcs]
  exact readDigits_decimalFuel h

/-- An operand is read back in its own width; 10 digits are enough for 32 bits. -/
theorem readBits_decimal {k : Nat} (hk : k ≤ 32) (x : BitVec k) : readBits k (decimal x.toNat) = some x := by
  have hfit : x.toNat < 10 ^ 10 := x.isLt.trans_le ((Nat.pow_le_pow_right (by norm_num) hk).trans (by norm_num))
  rw [readBits, readNumber_decimal hfit]
  simp [x.isLt]

end Numbers

/-! ### Tokens -/

/-- A character that neither ends a word nor is a token of its own. -/
def isPlain (c : Char) : Bool := !(c == ';' || isBlank c || isMark c)

section Tokens

theorem tokensFrom_plain {w : List Char} (hw : ∀ c ∈ w, isPlain c = true) (acc cs : List Char) :
    tokensFrom acc (w ++ cs) = tokensFrom (w.reverse ++ acc) cs := by
  induction w generalizing acc with
  | nil => rfl
  | cons c w ih =>
    obtain ⟨hc, hrest⟩ := List.forall_mem_cons.mp hw
    simp only [isPlain, Bool.not_eq_true', Bool.or_eq_false_iff] at hc
    obtain ⟨⟨hcomment, hblank⟩, hmark⟩ := hc
    rw [List.cons_append, tokensFrom, hcomment, hblank, hmark, List.reverse_cons, List.append_assoc]
    exact ih hrest _

theorem flushWord_reverse {w : List Char} (hne : w ≠ []) (rest : List (List Char)) :
    flushWord w.reverse rest = w :: rest := by
  obtain ⟨c, cs, hcs⟩ := List.exists_cons_of_ne_nil (mt List.reverse_eq_nil_iff.mp hne)
  rw [hcs, flushWord, ← hcs, List.reverse_reverse]

variable {w : List Char} (hw : ∀ c ∈ w, isPlain c = true) (hne : w ≠ [])
include hw hne

theorem tokens_word : tokens w = [w] := by
  have h := tokensFrom_plain hw [] []
  rw [List.append_nil, List.append_nil] at h
  rw [tokens, h, tokensFrom, flushWord_reverse hne]

theorem tokens_word_blank (cs : List Char) : tokens (w ++ ' ' :: cs) = w :: tokens cs := by
  rw [tokens, tokensFrom_plain hw, List.append_nil, tokensFrom]
  exact flushWord_reverse hne _

theorem tokens_word_comma (cs : List Char) : tokens (w ++ ',' :: cs) = w :: [','] :: tokens cs := by
  rw [tokens, tokensFrom_plain hw, List.append_nil, tokensFrom]
  exact flushWord_reverse hne _

end Tokens

theorem tokens_at (cs : List Char) : tokens ('@' :: cs) = ['@'] :: tokens cs := rfl

theorem tokens_blank (cs : List Char) : tokens (' ' :: cs) = tokens cs := rfl

/-! ### One operation -/

section Operation

theorem isPlain_of_mem_mnemonicText (o : Opcode) : ∀ c ∈ mnemonicText o, isPlain c = true := by
  refine List.all_eq_true.mp ?_
  cases o <;> rfl

theorem mnemonicText_ne_nil (o : Opcode) : mnemonicText o ≠ [] := by
  cases o <;> decide

theorem readOpcode_mnemonicText (o : Opcode) : readOpcode (mnemonicText o) = some o := by
  cases o <;> decide

theorem isPlain_of_mem_decimal (n : Nat) : ∀ c ∈ decimal n, isPlain c = true := by
  intro c hc
  obtain ⟨d, hd, rfl⟩ := mem_decimalFuel hc
  interval_cases d <;> decide

theorem tokens_decimal (n : Nat) : tokens (decimal n) = [decimal n] :=
  tokens_word (isPlain_of_mem_decimal n) (decimal_ne_nil n)

/-- The tokens of an operand that follows a number. -/
theorem tokens_decimal_operandText (n k : Nat) (cs : List Char) :
    tokens (decimal n ++ (operandText k ++ cs)) = decimal n :: [','] :: tokens (decimal k ++ cs) := by
  rw [operandText, List.cons_append, List.cons_append, tokens_word_comma (isPlain_of_mem_decimal n) (decimal_ne_nil n),
    tokens_blank]

/-- The tokens of the operands after the time (R76). -/
def moreTokens : Instr → List (List Char)
  | .srcLd _ i => [[','], decimal i.toNat]
  | .rxHdr _ len => [[','], decimal len.toNat]
  | .rxSt _ i raw => [[','], decimal i.toNat, [','], decimal raw.toNat]
  | _ => []

theorem tokens_decimal_moreText (n : Nat) (i : Instr) :
    tokens (decimal n ++ moreText i) = decimal n :: moreTokens i := by
  have hone (k : Nat) : tokens (decimal n ++ operandText k) = [decimal n, [','], decimal k] := by
    have h := tokens_decimal_operandText n k []
    rwa [List.append_nil, List.append_nil, tokens_decimal] at h
  have hnone : tokens (decimal n ++ []) = [decimal n] := by rw [List.append_nil, tokens_decimal]
  cases i with
  | srcLd t k => exact hone _
  | rxHdr t len => exact hone _
  | rxSt t k raw =>
    have h := tokens_decimal_operandText k.toNat raw.toNat []
    rw [List.append_nil, List.append_nil, tokens_decimal] at h
    rw [moreText, tokens_decimal_operandText, h, moreTokens]
  | decEdge t => exact hnone
  | srcChk t => exact hnone
  | srcSend t => exact hnone
  | snkTick t => exact hnone
  | encFire t => exact hnone
  | reset t => exact hnone

/-- The tokens of a printed operation. -/
theorem tokens_instrText (i : Instr) :
    tokens (instrText i) = mnemonicText i.opcode :: ['@'] :: decimal i.time.toNat :: moreTokens i := by
  rw [instrText, timeText, List.append_assoc, List.cons_append, List.cons_append,
    tokens_word_blank (isPlain_of_mem_mnemonicText _) (mnemonicText_ne_nil _), tokens_at, tokens_decimal_moreText]

theorem lengthField_toNat (k : Nat) : (lengthField k).toNat = min k 65535 := by
  rw [lengthField, BitVec.toNat_ofNat]
  split_ifs <;> omega

/-- A length that fits its field is written as it is. -/
theorem lengthField_of_toNat (len : BitVec 16) : lengthField len.toNat = len :=
  BitVec.eq_of_toNat_eq (by rw [lengthField_toNat]; omega)

theorem readOperands_moreTokens (i : Instr) : readOperands i.opcode i.time (moreTokens i) = some i := by
  cases i with
  | srcLd t k =>
    simp only [readOperands, Instr.opcode, Opcode.format, moreTokens, readBits_decimal (k := 8) (by norm_num)]
    rfl
  | rxHdr t len =>
    have hfit : len.toNat < 10 ^ 10 := len.isLt.trans (by norm_num)
    simp only [readOperands, Instr.opcode, Opcode.format, moreTokens, readNumber_decimal hfit, Option.map_some,
      lengthField_of_toNat]
    rfl
  | rxSt t k raw =>
    simp only [readOperands, Instr.opcode, Opcode.format, moreTokens, readBits_decimal (k := 8) (by norm_num),
      readBits_decimal (k := 16) (by norm_num)]
    rfl
  | decEdge t => rfl
  | srcChk t => rfl
  | srcSend t => rfl
  | snkTick t => rfl
  | encFire t => rfl
  | reset t => rfl

end Operation

/-- Settles O8: the line is cut into the mnemonic, the time and the operands, and each is read back. -/
theorem printedOperationReadsBack : Obligations.PrintedOperationReadsBack := by
  intro i
  simp only [readLine, tokens_instrText, readTokens, readOperation, readBits_decimal le_rfl, readOpcode_mnemonicText,
    readOperands_moreTokens, Option.map_some]

/-! ### The role line -/

section RoleLine

/-- The line that sets a role. -/
def roleLine : Role → List Char
  | .tx => "role TX".toList
  | .rx => "role RX".toList

theorem splitLines_line {l : List Char} (hl : '\n' ∉ l) (acc rest : List Char) :
    splitLines acc (l ++ '\n' :: rest) = (acc.reverse ++ l) :: splitLines [] rest := by
  induction l generalizing acc with
  | nil => rw [List.append_nil]; rfl
  | cons c l ih =>
    obtain ⟨hc, hl⟩ := not_or.mp (mt List.mem_cons.mpr hl)
    rw [List.cons_append, splitLines, if_neg (by simpa using Ne.symm hc), ih hl, List.reverse_cons, List.append_assoc]
    rfl

theorem newline_not_mem_roleLine (r : Role) : '\n' ∉ roleLine r := by
  cases r <;> decide

theorem readLine_roleLine (r : Role) : readLine (roleLine r) = some (.role r) := by
  cases r <;> rfl

/-- No line changes a role that is set (log 24). -/
theorem addLine_role {x y : TraceText} {l : SourceLine} {r : Role} (h : addLine x l = some y) (hx : x.role = some r) :
    y.role = some r := by
  cases l with
  | blank => obtain rfl := Option.some.inj h; exact hx
  | role q =>
    rw [addLine, if_neg (by simp [hx])] at h
    cases h
  | param name v =>
    rw [addLine] at h
    split at h
    next =>
      obtain ⟨p, -, rfl⟩ := Option.map_eq_some_iff.mp h
      exact hx
    next => cases h
  | op i => obtain rfl := Option.some.inj h; exact hx
  | pseudo q => obtain rfl := Option.some.inj h; exact hx

theorem readLines_cons_some {x z : TraceText} {l : List Char} {ls : List (List Char)}
    (h : readLines x (l :: ls) = some z) :
    ∃ sl y, readLine l = some sl ∧ addLine x sl = some y ∧ readLines y ls = some z := by
  rw [readLines] at h
  cases hl : readLine l with
  | none => simp [hl] at h
  | some sl =>
    simp only [hl] at h
    cases hy : addLine x sl with
    | none => simp [hy] at h
    | some y => exact ⟨sl, y, rfl, hy, by simpa [hy] using h⟩

theorem readLines_role {x z : TraceText} {ls : List (List Char)} {r : Role} (h : readLines x ls = some z)
    (hx : x.role = some r) : z.role = some r := by
  induction ls generalizing x with
  | nil => obtain rfl := Option.some.inj h; exact hx
  | cons l ls ih =>
    obtain ⟨sl, y, -, hadd, hrest⟩ := readLines_cons_some h
    exact ih hrest (addLine_role hadd hx)

/-- A text that begins with a role line and can be read has that role. -/
theorem readTrace_roleLine {x : TraceText} {r : Role} {rest : List Char}
    (h : readTrace (roleLine r ++ '\n' :: rest) = some x) : x.role = some r := by
  rw [readTrace, splitLines_line (newline_not_mem_roleLine r)] at h
  obtain ⟨sl, y, hread, hadd, hrest⟩ := readLines_cons_some h
  obtain rfl := Option.some.inj (hread.symm.trans (readLine_roleLine r))
  obtain rfl := Option.some.inj hadd
  exact readLines_role hrest rfl

/-- The node of a role, out of one of each. -/
def nodeOf (tx : TxNode) (rx : RxNode) : Role → Node
  | .tx => .tx tx
  | .rx => .rx rx

variable (x : TraceText) (openRole : Role) (tx : TxNode) (rx : RxNode)

@[simp] theorem nodeOf_role (r : Role) : (nodeOf tx rx r).role = r := by
  cases r <;> rfl

/-- A text is loaded as a node before its first RESET, and only which node depends on the role. -/
theorem load_eq :
    x.load openRole tx rx = State.beforeReset x.params (nodeOf tx rx (x.roleFor openRole)) x.words := by
  unfold TraceText.load
  cases x.roleFor openRole <;> rfl

theorem load_node_of_role {x : TraceText} {r : Role} (h : x.role = some r) :
    (x.load openRole tx rx).node = nodeOf tx rx r := by
  rw [load_eq, TraceText.roleFor, h]
  rfl

theorem load_role_of_none {x : TraceText} (h : x.role = none) : (x.load openRole tx rx).role = openRole := by
  rw [load_eq, TraceText.roleFor, h]
  exact nodeOf_role tx rx openRole

end RoleLine

/-- Settles O58: the role line is the first to be read, and no later line changes the role. -/
theorem roleLineSetsTheRole : Obligations.RoleLineSetsTheRole := by
  refine ⟨fun x rest openRole tx rx => ⟨fun h => ?_, fun h => ?_⟩, fun x openRole tx rx => ⟨fun h => ?_, ?_⟩⟩
  · exact load_node_of_role openRole tx rx (readTrace_roleLine (r := .tx) h)
  · exact load_node_of_role openRole tx rx (readTrace_roleLine (r := .rx) h)
  · exact load_role_of_none openRole tx rx h
  · rw [load_eq]
    exact ⟨rfl, rfl, rfl⟩

end Sys2Proof.Proofs
end

section
/-! PROOFS. The invariants of R40 (spec/10_state.md section 8): they hold after RESET, every operation and every step
keep them, and outside them nothing but RESET runs (spec/43_encoder.md R133). -/

namespace Sys2Proof.Proofs

open Sys2Proof.Machine Sys2Proof.Laws

/-! ### After RESET -/

section AfterReset
variable {p : Params} (hlegal : Legal p) (t : Time)
include hlegal

theorem chReset_band_of_legal : p.chMin ≤ p.chReset ∧ p.chReset ≤ p.chMax := by
  obtain ⟨-, ⟨-, hmin, hmax, -⟩, -⟩ := legal_iff.mp hlegal
  exact ⟨hmin, hmax⟩

theorem eq_chReset_of_mem {v : Channel} (hv : v ∈ List.replicate p.nCh (BitVec.ofNat 16 p.chReset)) :
    v.toNat = p.chReset := by
  have hfit := chReset_le_of_legal hlegal
  rw [List.eq_of_mem_replicate hv, BitVec.toNat_ofNat, Nat.mod_eq_of_lt (by omega)]

theorem txReset_txInv : TxInv p (txReset p t) := by
  have hfit := nCh_le_of_legal hlegal
  refine txInv_iff.mpr ⟨List.length_replicate, List.length_replicate, ?_, allAtMost_iff.mpr fun v hv => ?_⟩
  · rw [txReset, BitVec.toNat_ofNat]
    exact Nat.mod_le _ _
  · rw [eq_chReset_of_mem hlegal hv]
    exact le_max_left _ _

theorem rxReset_rxInv : RxInv p (rxReset p t) := by
  obtain ⟨hmin, hmax⟩ := chReset_band_of_legal hlegal
  refine rxInv_iff.mpr ⟨List.length_replicate, allAtLeast_iff.mpr fun v hv => ?_, allAtMost_iff.mpr fun v hv => ?_,
    ?_, ?_, Nat.zero_le _⟩
  · rwa [eq_chReset_of_mem hlegal hv]
  · rwa [eq_chReset_of_mem hlegal hv]
  · simp [PhaseInv, rxReset]
  · simp [LevelInv, rxReset]

theorem nodeReset_inv (r : Role) : NodeInv p (nodeReset p r t) := by
  cases r with
  | tx => exact txReset_txInv hlegal t
  | rx => exact rxReset_rxInv hlegal t

/-- R9(f) keeps the first expiry within 2^31 of the RESET. -/
theorem rxReset_tmrDeadline_sub : ((rxReset p t).tmrDeadline - t).toNat < 2 ^ 31 := by
  obtain ⟨-, -, -, -, -, -, -, -, -, -, hdelay⟩ := legal_iff.mp hlegal
  have helapsed := elapsed_add32 t (micros p.encStartDelay)
  rw [elapsed] at helapsed
  rw [rxReset, helapsed, micros_toNat (by omega)]
  exact hdelay

theorem afterReset_timerAhead (r : Role) : (State.afterReset p r t).TimerAhead := by
  intro n hn
  cases r with
  | tx => cases hn
  | rx =>
    obtain rfl := Node.rx.inj hn
    exact notBefore_iff.mpr (rxReset_tmrDeadline_sub hlegal t)

end AfterReset

theorem standard_legal : Legal Params.standard := by decide

/-- RESET shuts the payload window (log 9). -/
theorem afterReset_windowInv (p : Params) (r : Role) (t : Time) : (State.afterReset p r t).WindowInv :=
  fun _ hk => nomatch hk

/-- Settles O44: `State.reset` is the TX case of the rest. -/
theorem resetStateSatisfiesInvariants : Obligations.ResetStateSatisfiesInvariants :=
  ⟨fun p r t hlegal =>
    ⟨⟨hlegal, nodeReset_inv hlegal t r⟩, afterReset_timerAhead hlegal t r, afterReset_windowInv p r t⟩,
  ⟨standard_legal, nodeReset_inv standard_legal 0 .tx⟩, afterReset_timerAhead standard_legal 0 .tx,
  afterReset_windowInv _ _ _⟩

/-! ### Every operation keeps them -/

section Encoder
variable {p : Params} {n m : RxNode}

/-- What the encoder has to show of the registers it leaves. -/
theorem rxInv_of_encoder (hinv : RxInv p n) (hch : m.ch = n.ch) (hphase : PhaseInv p m) (hlevel : LevelInv m)
    (hsum : m.encSum.toNat ≤ m.encIdx.toNat * p.chMax) : RxInv p m := by
  obtain ⟨hlen, hmin, hmax, -⟩ := rxInv_iff.mp hinv
  exact rxInv_iff.mpr ⟨hch ▸ hlen, hch ▸ hmin, hch ▸ hmax, hphase, hlevel, hsum⟩

/-- R121: the index and the sum go up together. -/
theorem endChannelPulse_rxInv (hlegal : Legal p) (hinv : RxInv p n) (hstate : n.encState = .pulseHigh) {v : Channel}
    (hread : readElem n.ch n.encIdx = some v) : RxInv p (endChannelPulse p v n).1 := by
  obtain ⟨-, -, hmax, ⟨-, hhigh, -⟩, -, hsum⟩ := rxInv_iff.mp hinv
  have hidx := hhigh hstate
  have hsucc := index_succ_toNat hlegal hidx
  have hvalue := readElem_le hmax hread
  refine rxInv_of_encoder hinv rfl ?_ (by simp [LevelInv, endChannelPulse]) ?_
  · simp only [PhaseInv, endChannelPulse, hsucc]
    simpa using hidx
  · simp only [endChannelPulse, hsucc, encSum_add_toNat hlegal hinv hidx hvalue, Nat.add_one_mul]
    exact Nat.add_le_add hsum hvalue

/-- R122, R125: a channel pulse starts, with the index on its channel. -/
theorem startPulse_rxInv (hinv : RxInv p n) (hidx : n.encIdx.toNat < p.nCh) :
    RxInv p { n with ppmOut := true, encState := .pulseHigh } := by
  have hsum := encSum_le_of_rxInv hinv
  exact rxInv_of_encoder hinv rfl (by simpa [PhaseInv] using ⟨hidx.le, hidx⟩) (by simp [LevelInv]) hsum

theorem startMarkerPulse_rxInv (hinv : RxInv p n) (hidx : n.encIdx.toNat = p.nCh) :
    RxInv p (startMarkerPulse p n).1 := by
  have hsum := encSum_le_of_rxInv hinv
  exact rxInv_of_encoder hinv rfl (by simp [PhaseInv, startMarkerPulse, hidx]) (by simp [LevelInv, startMarkerPulse])
    hsum

theorem startFrameGap_rxInv (hinv : RxInv p n) : RxInv p (startFrameGap p n).1 :=
  rxInv_of_encoder hinv rfl (by simp [PhaseInv, startFrameGap]) (by simp [LevelInv, startFrameGap]) (Nat.zero_le _)

/-- The index is at 0 in the gap, and there is a channel 0 (R9(a)). -/
theorem encIdx_lt_of_frameGap (hlegal : Legal p) (hinv : RxInv p n) (hstate : n.encState = .frameGap) :
    n.encIdx.toNat < p.nCh := by
  obtain ⟨-, -, -, -, hgap⟩ := phaseInv_of_rxInv hinv
  obtain ⟨hidx, -⟩ := hgap hstate
  obtain ⟨⟨hpos, -⟩, -⟩ := legal_iff.mp hlegal
  rw [hidx]
  exact hpos

/-- R40(a) to (d) for an ENC_FIRE, branch by branch. -/
theorem encoderBranch_rxInv (hlegal : Legal p) (hinv : RxInv p n) {seg : Segment}
    (h : encoderBranch p n = some seg) : RxInv p seg.1 := by
  obtain ⟨hstate, v, hread, rfl⟩ | ⟨-, hidx, rfl⟩ | ⟨-, hidx, rfl⟩ | ⟨-, rfl⟩ | ⟨hstate, rfl⟩ := encoderBranch_some h
  · exact endChannelPulse_rxInv hlegal hinv hstate hread
  · exact startPulse_rxInv hinv hidx
  · exact startMarkerPulse_rxInv hinv hidx
  · exact startFrameGap_rxInv hinv
  · exact startPulse_rxInv hinv (encIdx_lt_of_frameGap hlegal hinv hstate)

/-- R40(a) for a store: what is stored is in the band. -/
theorem writeElem_clamp_rxInv (hlegal : Legal p) (hinv : RxInv p n) (k : Index) (raw : Channel) :
    RxInv p { n with ch := writeElem n.ch k (clamp p raw) } := by
  obtain ⟨hlen, hmin, hmax, hrest⟩ := rxInv_iff.mp hinv
  obtain ⟨hband, hfit⟩ := channelBand_of_legal hlegal
  obtain ⟨hlow, hhigh⟩ := clamp_band hband hfit raw
  exact rxInv_iff.mpr ⟨by rw [writeElem_length, hlen], allAtLeast_write hmin hlow, allAtMost_write hmax hhigh, hrest⟩

end Encoder

/-- R40(e) for a load. -/
theorem writeElem_txBuf_txInv {p : Params} {n : TxNode} (hinv : TxInv p n) (k : Index) (v : Channel) :
    TxInv p { n with txBuf := writeElem n.txBuf k v } := by
  obtain ⟨hch, hbuf, hrest⟩ := txInv_iff.mp hinv
  exact txInv_iff.mpr ⟨hch, by rw [writeElem_length, hbuf], hrest⟩

/-- Every operation that answers a next state answers one within R40: all but RESET ask for R40 before they run, and
RESET establishes it. -/
theorem exec_next_inv {i : Instr} {s t : State} (h : exec i s = .next t) : t.Inv := by
  cases i with
  | decEdge t0 =>
    obtain ⟨n, ⟨-, hlegal, -, hinv⟩, ⟨-, rfl⟩ | ⟨hpulse, hidx, rfl⟩ | ⟨-, -, rfl⟩⟩ := execDecEdge_next h
    · exact ⟨hlegal, afterSync_txInv hinv⟩
    · have hafter := afterPulse_txInv hlegal hinv hpulse
      rw [afterPulse, if_pos hidx] at hafter
      exact ⟨hlegal, hafter⟩
    · exact ⟨hlegal, hinv⟩
  | srcChk t0 => obtain ⟨n, ⟨-, hlegal, -, hinv⟩, rfl⟩ := execSrcChk_next h; exact ⟨hlegal, hinv⟩
  | srcLd t0 k =>
    obtain ⟨n, v, ⟨-, hlegal, -, hinv⟩, -, rfl⟩ := execSrcLd_next h
    exact ⟨hlegal, writeElem_txBuf_txInv hinv k v⟩
  | srcSend t0 =>
    obtain ⟨n, ⟨-, hlegal, -, hinv⟩, ⟨-, rfl⟩ | ⟨-, rfl⟩⟩ := execSrcSend_next h
    · exact ⟨hlegal, hinv⟩
    · exact ⟨hlegal, hinv⟩
  | rxHdr t0 len =>
    obtain ⟨n, ⟨-, hlegal, -, hinv⟩, ⟨-, rfl⟩ | ⟨-, rfl⟩⟩ := execRxHdr_next h
    · exact ⟨hlegal, hinv⟩
    · exact ⟨hlegal, hinv⟩
  | rxSt t0 k raw =>
    obtain ⟨n, ⟨-, hlegal, -, hinv⟩, rfl⟩ := execRxSt_next h
    exact ⟨hlegal, writeElem_clamp_rxInv hlegal hinv k raw⟩
  | snkTick t0 => obtain ⟨n, ⟨-, hlegal, -, hinv⟩, rfl⟩ := execSnkTick_next h; exact ⟨hlegal, hinv⟩
  | encFire t0 =>
    obtain ⟨n, m, d, ⟨-, hlegal, -, hinv⟩, -, hbranch, rfl⟩ := execEncFire_next h
    exact ⟨hlegal, encoderBranch_rxInv hlegal hinv hbranch⟩
  | reset t0 =>
    obtain ⟨hlegal, rfl⟩ := execReset_next h
    exact ⟨hlegal, nodeReset_inv hlegal t0 s.role⟩

/-- Settles O45: a step that changes anything is an operation. -/
theorem everyStepKeepsInvariants : Obligations.EveryStepKeepsInvariants := by
  intro s t hinv h
  obtain ⟨-, ⟨-, rfl⟩ | ⟨w, rest, i, m, -, -, -, hexec⟩⟩ := step_next h
  · exact hinv
  · exact exec_next_inv hexec

/-! ### Outside them, and on the other role -/

section Refusals
variable {s : State} {i : Instr} (hlegal : Legal s.params)
include hlegal

theorem takeTx_of_not_txInv {n : TxNode} {rule : Params → TxNode → RuleAnswer TxNode}
    (hwf : i.WellFormed s.params.nCh) (hn : s.node = .tx n) (hinv : ¬ TxInv s.params n) :
    takeTx i s rule = .refused .unreachableState := by
  simp [takeTx, hn, hlegal, hwf, hinv]

theorem takeRx_of_not_rxInv {n : RxNode} {rule : Params → RxNode → RuleAnswer RxNode}
    (hwf : i.WellFormed s.params.nCh) (hn : s.node = .rx n) (hinv : ¬ RxInv s.params n) :
    takeRx i s rule = .refused .unreachableState := by
  simp [takeRx, hn, hlegal, hwf, hinv]

/-- The index is looked at before the role (log 13). -/
theorem takeTx_of_rx {n : RxNode} {rule : Params → TxNode → RuleAnswer TxNode} (hn : s.node = .rx n) :
    takeTx i s rule =
      .refused (.illegalWord (encode i) (if i.WellFormed s.params.nCh then .wrongRole else .badIndex)) := by
  by_cases hwf : i.WellFormed s.params.nCh <;> simp [takeTx, hn, hlegal, hwf]

theorem takeRx_of_tx {n : TxNode} {rule : Params → RxNode → RuleAnswer RxNode} (hn : s.node = .tx n) :
    takeRx i s rule =
      .refused (.illegalWord (encode i) (if i.WellFormed s.params.nCh then .wrongRole else .badIndex)) := by
  by_cases hwf : i.WellFormed s.params.nCh <;> simp [takeRx, hn, hlegal, hwf]

end Refusals

/-- An operation of the TX node is taken by some rule of it. -/
theorem exec_eq_takeTx {i : Instr} (h : i.role? = some .tx) (s : State) : ∃ rule, exec i s = takeTx i s rule := by
  cases i with
  | decEdge t => exact ⟨_, rfl⟩
  | srcChk t => exact ⟨_, rfl⟩
  | srcLd t k => exact ⟨_, rfl⟩
  | srcSend t => exact ⟨_, rfl⟩
  | rxHdr t len => cases h
  | rxSt t k raw => cases h
  | snkTick t => cases h
  | encFire t => cases h
  | reset t => cases h

/-- An operation of the RX node is taken by some rule of it. -/
theorem exec_eq_takeRx {i : Instr} (h : i.role? = some .rx) (s : State) : ∃ rule, exec i s = takeRx i s rule := by
  cases i with
  | rxHdr t len => exact ⟨_, rfl⟩
  | rxSt t k raw => exact ⟨_, rfl⟩
  | snkTick t => exact ⟨_, rfl⟩
  | encFire t => exact ⟨_, rfl⟩
  | decEdge t => cases h
  | srcChk t => cases h
  | srcLd t k => cases h
  | srcSend t => cases h
  | reset t => cases h

/-- Settles O16: taking an operation looks at the invariants before its rule, whatever the rule. -/
theorem unreachableStatesAreRefused : Obligations.UnreachableStatesAreRefused := by
  intro s i hlegal hwf hrole hinv
  cases hn : s.node with
  | tx n =>
    obtain ⟨rule, htake⟩ := exec_eq_takeTx (by rw [hrole, State.role, hn, role_tx]) s
    rw [hn] at hinv
    rw [htake, takeTx_of_not_txInv hlegal hwf hn hinv]
  | rx n =>
    obtain ⟨rule, htake⟩ := exec_eq_takeRx (by rw [hrole, State.role, hn, role_rx]) s
    rw [hn] at hinv
    rw [htake, takeRx_of_not_rxInv hlegal hwf hn hinv]

theorem exec_of_other_role {s : State} {i : Instr} {r : Role} (hlegal : Legal s.params) (hrole : i.role? = some r)
    (hne : r ≠ s.role) : exec i s =
      .refused (.illegalWord (encode i) (if i.WellFormed s.params.nCh then .wrongRole else .badIndex)) := by
  cases hn : s.node with
  | tx n =>
    rw [State.role, hn, role_tx] at hne
    obtain rfl : r = .rx := by cases r with | tx => exact absurd rfl hne | rx => rfl
    obtain ⟨rule, htake⟩ := exec_eq_takeRx hrole s
    rw [htake, takeRx_of_tx hlegal hn]
  | rx n =>
    rw [State.role, hn, role_rx] at hne
    obtain rfl : r = .tx := by cases r with | rx => exact absurd rfl hne | tx => rfl
    obtain ⟨rule, htake⟩ := exec_eq_takeTx hrole s
    rw [htake, takeTx_of_rx hlegal hn]

/-- Settles O18: the role is looked at right after the index, and the register numbers are the model's tables. -/
theorem rolesAreDisjoint : Obligations.RolesAreDisjoint := by
  refine ⟨fun s i r => exec_of_other_role, fun n k hlow hhigh => ?_, fun n k hk => ?_, fun n k => rfl⟩
  · interval_cases k <;> rfl
  · interval_cases k <;> rfl

end Sys2Proof.Proofs
end

section
/-! PROOFS. The step (spec/30_encoding.md R75, R81): what it runs, and what it refuses by which name. -/

namespace Sys2Proof.Proofs

open Sys2Proof.Machine Sys2Proof.Laws

/-! ### The monitor (R81) -/

/-- R81(c) as a bound: no expiry of an RX node is due before `t`. -/
theorem overdue_eq_false_iff {n : Node} {t : Time} :
    n.overdue t = false ↔ ∀ m, n = .rx m → t = m.tmrDeadline ∨ 2 ^ 31 ≤ (t - m.tmrDeadline).toNat := by
  cases n with
  | tx m => exact ⟨fun _ _ h => (nomatch h), fun _ => rfl⟩
  | rx m =>
    rw [Node.overdue, ← Bool.not_eq_true, isAfter_iff, not_and_or, not_lt, not_not, or_comm]
    exact ⟨fun h m' hm => Node.rx.inj hm ▸ h, fun h => h m rfl⟩

theorem overdue_of_rx {n : Node} {m : RxNode} {t : Time} (hn : n = .rx m) (hne : t ≠ m.tmrDeadline)
    (hafter : (t - m.tmrDeadline).toNat < 2 ^ 31) : n.overdue t = true := by
  rw [hn, Node.overdue, isAfter_iff]
  exact ⟨hafter, hne⟩

section Observe
variable {p : Params} {n : Node} {m : Monitor} {i : Instr}

theorem observe_of_first_reset (hstarted : m.started = false) (hi : isReset i = true) :
    observe p n m i = .ok { started := true, now := i.time, window := none } := by
  simp [observe, hstarted, hi]

theorem observe_of_first_not_reset (hstarted : m.started = false) (hi : isReset i = false) :
    observe p n m i = .error .firstIsReset := by
  simp [observe, hstarted, hi]

variable (hstarted : m.started = true)
include hstarted

theorem observe_of_before (htime : 2 ^ 31 ≤ (i.time - m.now).toNat) : observe p n m i = .error .timeOrder := by
  have hbefore : notBefore i.time m.now = false := Bool.eq_false_of_not_eq_true fun h =>
    not_lt.mpr htime (notBefore_iff.mp h)
  simp [observe, hstarted, hbefore]

variable (htime : (i.time - m.now).toNat < 2 ^ 31)
include htime

theorem observe_of_overdue (hdue : n.overdue i.time = true) : observe p n m i = .error .timerExact := by
  simp [observe, hstarted, notBefore_iff.mpr htime, hdue]

variable (hdue : n.overdue i.time = false)
include hdue

theorem observe_of_no_window (hwindow : nextWindow p m.window i = none) :
    observe p n m i = .error .rxStInPayload := by
  simp [observe, hstarted, notBefore_iff.mpr htime, hdue, hwindow]

theorem observe_of_window {w : Option Index} (hwindow : nextWindow p m.window i = some w) :
    observe p n m i = .ok { started := true, now := i.time, window := w } := by
  simp [observe, hstarted, notBefore_iff.mpr htime, hdue, hwindow]

end Observe

/-- The monitor refuses by the four names of R81(a) to (d). -/
theorem observe_error {p : Params} {n : Node} {m : Monitor} {i : Instr} {r : Refusal}
    (h : observe p n m i = .error r) :
    r = .firstIsReset ∨ r = .timeOrder ∨ r = .timerExact ∨ r = .rxStInPayload := by
  cases hstarted : m.started with
  | false =>
    cases hi : isReset i with
    | true => rw [observe_of_first_reset hstarted hi] at h; cases h
    | false => rw [observe_of_first_not_reset hstarted hi] at h; cases h; exact .inl rfl
  | true =>
    obtain htime | htime := lt_or_ge (i.time - m.now).toNat (2 ^ 31)
    · cases hdue : n.overdue i.time with
      | true => rw [observe_of_overdue hstarted htime hdue] at h; cases h; exact .inr (.inr (.inl rfl))
      | false =>
        cases hwindow : nextWindow p m.window i with
        | none => rw [observe_of_no_window hstarted htime hdue hwindow] at h; cases h; exact .inr (.inr (.inr rfl))
        | some w => rw [observe_of_window hstarted htime hdue hwindow] at h; cases h
    · rw [observe_of_before hstarted htime] at h; cases h; exact .inr (.inl rfl)

/-! ### The step as its three checks -/

section Step
variable {s : State} (hlegal : Legal s.params)
include hlegal

theorem step_of_nil (hpending : s.pending = []) : step s = .next s := by
  rw [step, if_pos hlegal, hpending]

variable {w : EventWord} {rest : List EventWord} (hpending : s.pending = w :: rest)
include hpending

theorem step_of_decode_error {why : WordReason} (hdecode : decodeFor s.params.nCh s.role w = .error why) :
    step s = .refused (.illegalWord w why) := by
  simp only [step, if_pos hlegal, hpending, hdecode]

variable {i : Instr} (hdecode : decodeFor s.params.nCh s.role w = .ok i)
include hdecode

theorem step_of_observe_error {r : Refusal} (hobserve : observe s.params s.node s.monitor i = .error r) :
    step s = .refused r := by
  simp only [step, if_pos hlegal, hpending, hdecode, hobserve]

theorem step_of_observe_ok {m : Monitor} (hobserve : observe s.params s.node s.monitor i = .ok m) :
    step s = exec i (s.accept rest m) := by
  simp only [step, if_pos hlegal, hpending, hdecode, hobserve]

/-- The step past the first RESET, on a time in order and no expiry overdue. -/
theorem step_eq_exec (hstarted : s.monitor.started = true) (htime : (i.time - s.monitor.now).toNat < 2 ^ 31)
    (hdue : s.node.overdue i.time = false) {window : Option Index}
    (hwindow : nextWindow s.params s.monitor.window i = some window) :
    step s = exec i (s.accept rest { started := true, now := i.time, window := window }) :=
  step_of_observe_ok hlegal hpending hdecode (observe_of_window hstarted htime hdue hwindow)

end Step

/-- Settles O13: the first branch of the step. -/
theorem stepWithoutEventChangesNothing : Obligations.StepWithoutEventChangesNothing :=
  fun _ hlegal hpending => step_of_nil hlegal hpending

/-- Settles O9: the premises are the monitor's checks. -/
theorem stepRunsDecodedOperation : Obligations.StepRunsDecodedOperation := by
  intro s w rest i window hlegal hpending hdecode hstarted htime hdue hwindow
  exact step_eq_exec hlegal hpending hdecode hstarted htime (overdue_eq_false_iff.mpr hdue) hwindow

theorem isReset_eq_false {i : Instr} (hi : ∀ t, i ≠ .reset t) : isReset i = false :=
  Bool.eq_false_of_not_eq_true fun h => by
    obtain ⟨t, rfl⟩ := isReset_iff.mp h
    exact hi t rfl

/-- Settles O10: before the first RESET the monitor looks at the operation only, and RESET asks for no invariant. -/
theorem firstOperationIsReset : Obligations.FirstOperationIsReset := by
  intro s w rest i hlegal hpending hdecode hstarted
  refine ⟨fun hi => ?_, ?_⟩
  · exact step_of_observe_error hlegal hpending hdecode (observe_of_first_not_reset hstarted (isReset_eq_false hi))
  · rintro t rfl
    have hstep := step_of_observe_ok hlegal hpending hdecode (observe_of_first_reset hstarted rfl)
    have hexec := execReset_of_legal (s := s.accept rest { started := true, now := t, window := none }) hlegal t
    exact ⟨hstep, _, hstep.trans hexec, exec_next_inv (i := .reset t) hexec⟩

/-! ### The payload window (R80) -/

section Window
variable (p : Params)

theorem nextWindow_rxHdr (t : Time) (len : BitVec 16) :
    nextWindow p none (.rxHdr t len) = some (if len.toNat = 2 * p.nCh then some 0 else none) := by
  rw [nextWindow, Params.payloadLen]
  split_ifs <;> rfl

theorem nextWindow_rxSt_self (t : Time) (k : Index) (raw : Channel) :
    nextWindow p (some k) (.rxSt t k raw) = some (if k.toNat + 1 = p.nCh then none else some (k + 1)) := by
  rw [nextWindow, if_pos rfl]
  split_ifs <;> rfl

theorem nextWindow_rxSt_of_ne {window : Option Index} {k : Index} (h : window ≠ some k) (t : Time) (raw : Channel) :
    nextWindow p window (.rxSt t k raw) = none :=
  if_neg h

end Window

/-- Settles O12: by the operation; an index below `N_CH` advances without wrapping. -/
theorem payloadWindowFollowsTheExpansion : Obligations.PayloadWindowFollowsTheExpansion := by
  intro p hlegal
  refine ⟨nextWindow_rxHdr p, fun t len k => rfl, fun t k raw => nextWindow_rxSt_of_ne p (by simp) t raw,
    fun t k j raw hne => nextWindow_rxSt_of_ne p (by simpa using hne.symm) t raw, fun t k raw hk => ?_,
    fun t k raw hk => ?_, fun t w => rfl, fun t w k => ⟨rfl, rfl, rfl, rfl, rfl, rfl⟩⟩
  · exact ⟨k + 1, index_succ_toNat hlegal (by omega), by rw [nextWindow_rxSt_self, if_neg (by omega)]⟩
  · rw [nextWindow_rxSt_self, if_pos hk]

/-! ### Which name a refusal has -/

/-- Settles O11: each clause is the first check that fails; ENC_FIRE away from its deadline is past it, which the
monitor refuses, or before it, which the operation refuses by the same name. -/
theorem illFormedTracesAreRefusedByName : Obligations.IllFormedTracesAreRefusedByName := by
  intro s w rest hlegal hpending
  refine ⟨fun why => step_of_decode_error hlegal hpending, fun i hdecode => ⟨fun hstarted hi => ?_, fun hstarted =>
    ⟨fun htime => ?_, fun htime => ⟨fun n hn hne hafter => ?_, ?_, ?_⟩⟩⟩⟩
  · exact step_of_observe_error hlegal hpending hdecode (observe_of_first_not_reset hstarted (isReset_eq_false hi))
  · exact step_of_observe_error hlegal hpending hdecode (observe_of_before hstarted htime)
  · exact step_of_observe_error hlegal hpending hdecode
      (observe_of_overdue hstarted htime (overdue_of_rx hn hne hafter))
  · rintro n t hn hinv rfl hne
    cases hdue : s.node.overdue t with
    | true => exact step_of_observe_error hlegal hpending hdecode (observe_of_overdue hstarted htime hdue)
    | false =>
      rw [step_eq_exec hlegal hpending hdecode hstarted htime hdue rfl]
      exact exec_encFire_of_ne_deadline hn hlegal hinv hne
  · rintro n t k raw hn rfl hwindow hdue
    have hnotDue : s.node.overdue t = false :=
      overdue_eq_false_iff.mpr fun m hm => by
        obtain rfl := Node.rx.inj (hn.symm.trans hm)
        exact hdue
    exact step_of_observe_error hlegal hpending hdecode
      (observe_of_no_window hstarted htime hnotDue (nextWindow_rxSt_of_ne _ hwindow t raw))

end Sys2Proof.Proofs
end

section
/-! PROOFS. When an operation and a step complete (spec/60_exceptions.md R140; logs 6 and 14). -/

namespace Sys2Proof.Proofs

open Sys2Proof.Machine Sys2Proof.Laws

/-- An ENC_FIRE, if `i` is one, is at its deadline (R120). -/
def FiresOnTime (s : State) (i : Instr) : Prop :=
  ∀ n t, s.node = .rx n → i = .encFire t → t = n.tmrDeadline

section Completes
variable {s : State} {i : Instr} (hinv : s.Inv) (hwf : i.WellFormed s.params.nCh)
include hinv hwf

theorem exec_tx_completes {n : TxNode} (hn : s.node = .tx n) (hrole : ∀ q, i.role? = some q → q = .tx) :
    ∃ t, exec i s = .next t := by
  obtain ⟨hlegal, hnode⟩ := hinv
  rw [hn] at hnode
  cases i with
  | decEdge t =>
    obtain hgap | hpulse := lt_or_ge s.params.syncThreshold (elapsed t n.lastEdgeTime).toNat
    · exact ⟨_, exec_decEdge_of_gap hn hlegal hnode hgap⟩
    · obtain hidx | hidx := lt_or_ge n.decIdx.toNat s.params.nCh
      · exact ⟨_, exec_decEdge_of_pulse hn hlegal hnode hpulse hidx⟩
      · exact ⟨_, exec_decEdge_of_surplus hn hlegal hnode hpulse hidx⟩
  | srcChk t => exact ⟨_, exec_srcChk_eq hn hlegal hnode⟩
  | srcLd t k =>
    have hk : k.toNat < s.params.nCh := of_decide_eq_true hwf
    obtain ⟨hlen, -⟩ := txInv_iff.mp hnode
    exact ⟨_, exec_srcLd_of_readElem hn hlegal hnode hk (readElem_of_lt (hlen ▸ hk))⟩
  | srcSend t =>
    cases hlink : n.srcLink with
    | active => exact ⟨_, exec_srcSend_of_active hn hlegal hnode hlink⟩
    | lost => exact ⟨_, exec_srcSend_of_lost hn hlegal hnode hlink⟩
  | rxHdr t len => cases hrole _ rfl
  | rxSt t k raw => cases hrole _ rfl
  | snkTick t => cases hrole _ rfl
  | encFire t => cases hrole _ rfl
  | reset t => exact ⟨_, execReset_of_legal hlegal t⟩

theorem exec_rx_completes {n : RxNode} (hn : s.node = .rx n) (hrole : ∀ q, i.role? = some q → q = .rx)
    (hfire : FiresOnTime s i) : ∃ t, exec i s = .next t := by
  obtain ⟨hlegal, hnode⟩ := hinv
  rw [hn] at hnode
  cases i with
  | rxHdr t len =>
    by_cases hlen : len.toNat = s.params.payloadLen
    · exact ⟨_, exec_rxHdr_of_payloadLen hn hlegal hnode hlen⟩
    · exact ⟨_, exec_rxHdr_of_ne_payloadLen hn hlegal hnode hlen⟩
  | rxSt t k raw => exact ⟨_, exec_rxSt_eq hn hlegal hnode (of_decide_eq_true hwf)⟩
  | snkTick t => exact ⟨_, exec_snkTick_eq hn hlegal hnode⟩
  | encFire t =>
    obtain rfl := hfire n t hn rfl
    obtain ⟨⟨m, d⟩, hbranch⟩ := Option.isSome_iff_exists.mp (encoderBranch_isSome hnode)
    exact ⟨_, exec_encFire_of_branch hn hlegal hnode hbranch⟩
  | decEdge t => cases hrole _ rfl
  | srcChk t => cases hrole _ rfl
  | srcLd t k => cases hrole _ rfl
  | srcSend t => cases hrole _ rfl
  | reset t => exact ⟨_, execReset_of_legal hlegal t⟩

/-- R140: within R40 every operation of the node's role completes, an ENC_FIRE if it is at its deadline. -/
theorem exec_completes (hrole : i.roleOk s.role = true) (hfire : FiresOnTime s i) : ∃ t, exec i s = .next t := by
  have hrole := roleOk_iff.mp hrole
  cases hn : s.node with
  | tx n =>
    rw [State.role, hn, role_tx] at hrole
    exact exec_tx_completes hinv hwf hn hrole
  | rx n =>
    rw [State.role, hn, role_rx] at hrole
    exact exec_rx_completes hinv hwf hn hrole hfire

end Completes

/-- A decoded operation is one of the node's role, with its index in range. -/
theorem wellFormed_of_decodeFor {nCh : Nat} {r : Role} {w : EventWord} {i : Instr} (h : decodeFor nCh r w = .ok i) :
    i.WellFormed nCh ∧ i.roleOk r = true := by
  obtain ⟨hword, hrole⟩ := decodeFor_eq_ok_iff.mp h
  obtain ⟨-, hwf⟩ := decodedWordIsTheEncoding nCh w i hword
  exact ⟨hwf, hrole⟩

/-- What the monitor accepts completes, or is an ENC_FIRE that is not at its deadline. -/
theorem exec_accept_completes {s : State} {w : EventWord} {i : Instr} (hinv : s.Inv)
    (hdecode : decodeFor s.params.nCh s.role w = .ok i) (hfire : FiresOnTime s i) (rest : List EventWord)
    (m : Monitor) : ∃ t, exec i (s.accept rest m) = .next t := by
  obtain ⟨hwf, hrole⟩ := wellFormed_of_decodeFor hdecode
  exact exec_completes (s := s.accept rest m) hinv hwf hrole hfire

theorem exec_of_not_firesOnTime {s : State} {i : Instr} (hinv : s.Inv) (hfire : ¬ FiresOnTime s i) :
    exec i s = .refused .timerExact := by
  rw [FiresOnTime] at hfire
  push Not at hfire
  obtain ⟨n, t, hn, rfl, hne⟩ := hfire
  obtain ⟨hlegal, hnode⟩ := hinv
  rw [hn] at hnode
  exact exec_encFire_of_ne_deadline hn hlegal hnode hne

/-- The names a step within R40 refuses by: those of R81. -/
theorem step_completes_or_refuses {s : State} (hinv : s.Inv) :
    s.SafeStep ∨ step s = .refused .firstIsReset ∨ step s = .refused .timeOrder ∨
      step s = .refused .timerExact ∨ step s = .refused .rxStInPayload ∨
      ∃ w why, step s = .refused (.illegalWord w why) := by
  have ⟨hlegal, _⟩ := hinv
  cases hpending : s.pending with
  | nil => exact .inl ⟨s, step_of_nil hlegal hpending⟩
  | cons w rest =>
    cases hdecode : decodeFor s.params.nCh s.role w with
    | error why =>
      exact .inr (.inr (.inr (.inr (.inr ⟨w, why, step_of_decode_error hlegal hpending hdecode⟩))))
    | ok i =>
      cases hobserve : observe s.params s.node s.monitor i with
      | error r =>
        have hstep := step_of_observe_error hlegal hpending hdecode hobserve
        obtain rfl | rfl | rfl | rfl := observe_error hobserve
        · exact .inr (.inl hstep)
        · exact .inr (.inr (.inl hstep))
        · exact .inr (.inr (.inr (.inl hstep)))
        · exact .inr (.inr (.inr (.inr (.inl hstep))))
      | ok m =>
        have hstep := step_of_observe_ok hlegal hpending hdecode hobserve
        by_cases hfire : FiresOnTime s i
        · obtain ⟨t, hexec⟩ := exec_accept_completes hinv hdecode hfire rest m
          exact .inl ⟨t, hstep.trans hexec⟩
        · have hexec := exec_of_not_firesOnTime (s := s.accept rest m) hinv hfire
          exact .inr (.inr (.inr (.inl (hstep.trans hexec))))

/-- Settles O17: the type of faults is empty; the rest is the case split of the step's checks. -/
theorem stepsCompleteUnlessTheTraceIsIllFormed : Obligations.StepsCompleteUnlessTheTraceIsIllFormed := by
  refine ⟨fun s f => (nomatch f), fun s => step_completes_or_refuses,
    fun s w rest i m hinv hpending hdecode hobserve hfire => ?_⟩
  have ⟨hlegal, _⟩ := hinv
  obtain ⟨t, hexec⟩ := exec_accept_completes hinv hdecode hfire rest m
  exact ⟨t, (step_of_observe_ok hlegal hpending hdecode hobserve).trans hexec⟩

/-! ### A word placed as the next one (log 6) -/

section Placed
variable {s : State} {i : Instr}

@[simp] theorem prepareFor_params : (s.prepareFor i).params = s.params := rfl
@[simp] theorem prepareFor_pending : (s.prepareFor i).pending = s.pending := rfl
@[simp] theorem prepareFor_started : (s.prepareFor i).monitor.started = true := rfl

@[simp] theorem enqueue_params (w : EventWord) : (s.enqueue w).params = s.params := rfl
@[simp] theorem enqueue_node (w : EventWord) : (s.enqueue w).node = s.node := rfl
@[simp] theorem enqueue_role (w : EventWord) : (s.enqueue w).role = s.role := rfl
@[simp] theorem enqueue_monitor (w : EventWord) : (s.enqueue w).monitor = s.monitor := rfl

/-- The node `prepareFor` starts from: the one there, or one right after RESET where the role is another. -/
def roleNode (s : State) (i : Instr) : Node :=
  match i.role? with
  | none => s.node
  | some r => if s.node.role = r then s.node else nodeReset s.params r i.time

theorem roleNode_roleOk : i.roleOk (roleNode s i).role = true := by
  refine roleOk_iff.mpr fun q hq => ?_
  simp only [roleNode, hq]
  split
  next hrole => exact hrole.symm
  next => exact (role_nodeReset _ _ _).symm

theorem roleNode_inv (hinv : s.Inv) : NodeInv s.params (roleNode s i) := by
  obtain ⟨hlegal, hnode⟩ := hinv
  rw [roleNode]
  split
  · exact hnode
  · split
    · exact hnode
    · exact nodeReset_inv hlegal _ _

/-- The deadline `prepareFor` leaves: the one there, unless the operation is the expiry or would miss it. -/
theorem prepareFor_node :
    (∃ n, roleNode s i = .tx n ∧ (s.prepareFor i).node = .tx n) ∨
    ∃ n d, roleNode s i = .rx n ∧ (s.prepareFor i).node = .rx { n with tmrDeadline := d } ∧
      (d = i.time ∨ isAfter i.time d = false ∧ ∀ t, i ≠ .encFire t) := by
  have hnode : (s.prepareFor i).node =
      match roleNode s i with
      | .tx n => .tx n
      | .rx n =>
        match i.opcode with
        | .encFire => .rx { n with tmrDeadline := i.time }
        | _ => if isAfter i.time n.tmrDeadline then .rx { n with tmrDeadline := i.time } else .rx n := rfl
  rw [hnode]
  cases hrole : roleNode s i with
  | tx n => exact .inl ⟨n, rfl, rfl⟩
  | rx n =>
    refine .inr ⟨n, ?_⟩
    by_cases hfire : i.opcode = .encFire
    · exact ⟨i.time, rfl, by simp only [hfire], .inl rfl⟩
    · cases hafter : isAfter i.time n.tmrDeadline with
      | true => exact ⟨i.time, rfl, by split <;> simp_all, .inl rfl⟩
      | false =>
        refine ⟨n.tmrDeadline, rfl, by split <;> simp_all, .inr ⟨hafter, ?_⟩⟩
        rintro t rfl
        exact hfire rfl

theorem prepareFor_roleOk : i.roleOk (s.prepareFor i).role = true := by
  have hrole := roleNode_roleOk (s := s) (i := i)
  obtain ⟨n, hn, hn'⟩ | ⟨n, d, hn, hn', -⟩ := prepareFor_node (s := s) (i := i)
  · rw [State.role, hn']
    rwa [hn] at hrole
  · rw [State.role, hn']
    rwa [hn] at hrole

theorem prepareFor_inv (hinv : s.Inv) : (s.prepareFor i).Inv := by
  have hnode := roleNode_inv (i := i) hinv
  obtain ⟨hlegal, -⟩ := hinv
  refine ⟨hlegal, ?_⟩
  obtain ⟨n, hn, hn'⟩ | ⟨n, d, hn, hn', -⟩ := prepareFor_node (s := s) (i := i)
  · rw [hn']
    rwa [hn] at hnode
  · rw [hn']
    rw [hn] at hnode
    exact hnode

theorem prepareFor_not_overdue : (s.prepareFor i).node.overdue i.time = false := by
  obtain ⟨n, -, hn⟩ | ⟨n, d, -, hn, hd⟩ := prepareFor_node (s := s) (i := i)
  · rw [hn]; rfl
  · rw [hn, Node.overdue]
    obtain rfl | ⟨hafter, -⟩ := hd
    · simp [isAfter]
    · exact hafter

theorem prepareFor_firesOnTime : FiresOnTime (s.prepareFor i) i := by
  rintro m t hm rfl
  obtain ⟨n, -, hn⟩ | ⟨n, d, -, hn, hd⟩ := prepareFor_node (s := s) (i := .encFire t)
  · cases hm.symm.trans hn
  · obtain rfl := Node.rx.inj (hm.symm.trans hn)
    obtain rfl | ⟨-, hne⟩ := hd
    · rfl
    · exact absurd rfl (hne t)

theorem prepareFor_inTime : (i.time - (s.prepareFor i).monitor.now).toNat < 2 ^ 31 := by
  have hnow : (s.prepareFor i).monitor.now = if notBefore i.time s.monitor.now then s.monitor.now else i.time := rfl
  rw [hnow]
  split
  next htime => exact notBefore_iff.mp htime
  next => simp

/-- R80 allows the operation in the window `prepareFor` leaves. -/
theorem prepareFor_nextWindow : ∃ w, nextWindow s.params (s.prepareFor i).monitor.window i = some w := by
  cases i with
  | rxHdr t len => exact ⟨_, nextWindow_rxHdr _ _ _⟩
  | rxSt t k raw => exact ⟨_, nextWindow_rxSt_self _ _ _ _⟩
  | decEdge t => exact ⟨_, rfl⟩
  | srcChk t => exact ⟨_, rfl⟩
  | srcLd t k => exact ⟨_, rfl⟩
  | srcSend t => exact ⟨_, rfl⟩
  | snkTick t => exact ⟨_, rfl⟩
  | encFire t => exact ⟨_, rfl⟩
  | reset t => exact ⟨_, rfl⟩

theorem withFetchWord_encode (hwf : i.WellFormed s.params.nCh) :
    s.withFetchWord 64 (encode i).toNat = (s.prepareFor i).enqueue (encode i) := by
  have hword : BitVec.ofNat 64 ((encode i).toNat % 2 ^ 64) = encode i := by
    rw [Nat.mod_eq_of_lt (encode i).isLt, BitVec.ofNat_toNat, BitVec.setWidth_eq]
  simp only [State.withFetchWord, hword, decodeOfEncodeIsTheOperation _ _ hwf]

/-- The word of a well-formed operation of the node's role is decoded there. -/
theorem decodeFor_encode {nCh : Nat} {r : Role} (hwf : i.WellFormed nCh) (hrole : i.roleOk r = true) :
    decodeFor nCh r (encode i) = .ok i :=
  decodeFor_eq_ok_iff.mpr ⟨decodeOfEncodeIsTheOperation nCh i hwf, hrole⟩

end Placed

/-- Settles O14: `prepareFor` has set all that the monitor and the operation look at. -/
theorem placedWordIsRunByTheNextStep : Obligations.PlacedWordIsRunByTheNextStep := by
  intro s i hinv hwf
  obtain ⟨window, hwindow⟩ := prepareFor_nextWindow (s := s) (i := i)
  have hprepared := prepareFor_inv (i := i) hinv
  have ⟨hlegal, _⟩ := hprepared
  have hstep := step_eq_exec (s := (s.prepareFor i).enqueue (encode i)) hlegal rfl
    (decodeFor_encode hwf prepareFor_roleOk) rfl prepareFor_inTime prepareFor_not_overdue hwindow
  obtain ⟨t, hexec⟩ := exec_completes
    (s := ((s.prepareFor i).enqueue (encode i)).accept s.pending { started := true, now := i.time, window := window })
    hprepared hwf prepareFor_roleOk prepareFor_firesOnTime
  rw [withFetchWord_encode hwf]
  obtain ⟨n, out, -, rfl⟩ := exec_onlyNodeChanged hexec
  exact ⟨window, _, hstep, hstep.trans hexec, rfl⟩

end Sys2Proof.Proofs
end

section
/-! PROOFS. The payload window over steps (spec/30_encoding.md R80; log 9). -/

namespace Sys2Proof.Proofs

open Sys2Proof.Machine Sys2Proof.Laws

/-- Where an open window comes from: a header, the store of the index before, or the window there was. -/
theorem nextWindow_open {p : Params} {window : Option Index} {i : Instr} {k : Index}
    (h : nextWindow p window i = some (some k)) :
    (∃ t len, i = .rxHdr t len ∧ k = 0) ∨
    (∃ t j raw, i = .rxSt t j raw ∧ j.toNat + 1 ≠ p.nCh ∧ k = j + 1) ∨ window = some k := by
  cases i with
  | rxHdr t len =>
    cases window with
    | some j => cases h
    | none =>
      rw [nextWindow_rxHdr] at h
      split at h
      · exact .inl ⟨t, len, rfl, (Option.some.inj (Option.some.inj h)).symm⟩
      · cases h
  | rxSt t j raw =>
    by_cases hj : window = some j
    · rw [hj, nextWindow_rxSt_self] at h
      split at h
      · cases h
      next hlast => exact .inr (.inl ⟨t, j, raw, rfl, hlast, (Option.some.inj (Option.some.inj h)).symm⟩)
    · rw [nextWindow_rxSt_of_ne p hj] at h
      cases h
  | reset t => cases h
  | decEdge t => exact .inr (.inr (Option.some.inj h))
  | srcChk t => exact .inr (.inr (Option.some.inj h))
  | srcLd t j => exact .inr (.inr (Option.some.inj h))
  | srcSend t => exact .inr (.inr (Option.some.inj h))
  | snkTick t => exact .inr (.inr (Option.some.inj h))
  | encFire t => exact .inr (.inr (Option.some.inj h))

/-- R80 for one accepted operation: the window it opens is on an RX node, at an index below `N_CH`. -/
theorem nextWindow_inv {s : State} {w : EventWord} {i : Instr} {k : Index} (hlegal : Legal s.params)
    (hwin : s.WindowInv) (hdecode : decodeFor s.params.nCh s.role w = .ok i)
    (h : nextWindow s.params s.monitor.window i = some (some k)) : s.role = .rx ∧ k.toNat < s.params.nCh := by
  obtain ⟨hwf, hrole⟩ := wellFormed_of_decodeFor hdecode
  obtain ⟨t, len, rfl, rfl⟩ | ⟨t, j, raw, rfl, hlast, rfl⟩ | hk := nextWindow_open h
  · obtain ⟨⟨hpos, -⟩, -⟩ := legal_iff.mp hlegal
    exact ⟨(roleOk_iff.mp hrole _ rfl).symm, hpos⟩
  · have hj : j.toNat < s.params.nCh := of_decide_eq_true hwf
    refine ⟨(roleOk_iff.mp hrole _ rfl).symm, ?_⟩
    rw [index_succ_toNat hlegal hj]
    omega
  · exact hwin k hk

/-- Settles O47: the monitor after a step is the one that accepted the operation. -/
theorem everyStepKeepsPayloadWindow : Obligations.EveryStepKeepsPayloadWindow := by
  intro s t hinv hwin h
  obtain ⟨hlegal, ⟨-, rfl⟩ | ⟨w, rest, i, m, -, hdecode, hobserve, hexec⟩⟩ := step_next h
  · exact hwin
  · obtain ⟨n, out, hrole, rfl⟩ := exec_onlyNodeChanged hexec
    intro k hk
    rw [putNode_role, hrole]
    obtain ⟨-, -, rfl⟩ | ⟨-, -, -, window, hwindow, rfl⟩ := observe_ok hobserve
    · cases hk
    · obtain rfl : window = some k := hk
      exact nextWindow_inv (s := s) hlegal hwin hdecode hwindow

end Sys2Proof.Proofs
end

section
/-! PROOFS. Who writes which register (spec/10_state.md sections 4 and 6). -/

namespace Sys2Proof.Proofs

open Sys2Proof.Machine Sys2Proof.Laws

/-! ### What each operation changes of the registers -/

section Changes
variable {i : Instr} {s t : State} (hi : ∀ t0, i ≠ .reset t0) (h : exec i s = .next t)
include hi h

/-- On a TX node: the edge leaves the snapshot alone, and the other operations write one register each or none. -/
theorem exec_tx_change {n m : TxNode} (hn : s.node = .tx n) (hm : t.node = .tx m) :
    (∃ t0, i = .decEdge t0 ∧ m.txBuf = n.txBuf ∧
      (m.srcLink = n.srcLink ∨
        s.params.syncThreshold < (elapsed t0 n.lastEdgeTime).toNat ∧ m.srcLink = .active)) ∨
    (∃ t0, i = .srcChk t0 ∧ m = { n with srcLink := srcLinkChecked s.params t0 n.lastEdgeTime n.srcLink }) ∨
    (∃ t0 k v, i = .srcLd t0 k ∧ m = { n with txBuf := writeElem n.txBuf k v }) ∨
    (∃ t0, i = .srcSend t0 ∧ m = n) := by
  cases i with
  | decEdge t0 =>
    obtain ⟨n', ⟨hn', -⟩, hcases⟩ := execDecEdge_next h
    obtain rfl := Node.tx.inj (hn.symm.trans hn')
    refine .inl ⟨t0, rfl, ?_⟩
    obtain ⟨hgap, rfl⟩ | ⟨-, -, rfl⟩ | ⟨-, -, rfl⟩ := hcases
    · obtain rfl := putNode_tx_inj hm
      exact ⟨rfl, .inr ⟨hgap, rfl⟩⟩
    · obtain rfl := putNode_tx_inj hm
      exact ⟨rfl, .inl rfl⟩
    · obtain rfl := putNode_tx_inj hm
      exact ⟨rfl, .inl rfl⟩
  | srcChk t0 =>
    obtain ⟨n', ⟨hn', -⟩, rfl⟩ := execSrcChk_next h
    obtain rfl := Node.tx.inj (hn.symm.trans hn')
    exact .inr (.inl ⟨t0, rfl, (putNode_tx_inj hm).symm⟩)
  | srcLd t0 k =>
    obtain ⟨n', v, ⟨hn', -⟩, -, rfl⟩ := execSrcLd_next h
    obtain rfl := Node.tx.inj (hn.symm.trans hn')
    exact .inr (.inr (.inl ⟨t0, k, v, rfl, (putNode_tx_inj hm).symm⟩))
  | srcSend t0 =>
    obtain ⟨n', ⟨hn', -⟩, ⟨-, rfl⟩ | ⟨-, rfl⟩⟩ := execSrcSend_next h
    · exact .inr (.inr (.inr ⟨t0, rfl, Node.tx.inj (hm.symm.trans hn'.symm |>.trans hn)⟩))
    · exact .inr (.inr (.inr ⟨t0, rfl, Node.tx.inj (hm.symm.trans hn'.symm |>.trans hn)⟩))
  | rxHdr t0 len => obtain ⟨n', ⟨hn', -⟩, -⟩ := execRxHdr_next h; cases hn.symm.trans hn'
  | rxSt t0 k raw => obtain ⟨n', ⟨hn', -⟩, -⟩ := execRxSt_next h; cases hn.symm.trans hn'
  | snkTick t0 => obtain ⟨n', ⟨hn', -⟩, -⟩ := execSnkTick_next h; cases hn.symm.trans hn'
  | encFire t0 => obtain ⟨n', m', d, ⟨hn', -⟩, -⟩ := execEncFire_next h; cases hn.symm.trans hn'
  | reset t0 => exact absurd rfl (hi t0)

/-- On an RX node: every operation but ENC_FIRE writes one register or none, and none of the encoder's. -/
theorem exec_rx_change {n m : RxNode} (hn : s.node = .rx n) (hm : t.node = .rx m) :
    (∃ t0 len, i = .rxHdr t0 len ∧
      (len.toNat = s.params.payloadLen ∧ m = { n with lastRxTime := t0 } ∨ m = n)) ∨
    (∃ t0 k raw, i = .rxSt t0 k raw ∧ m = { n with ch := writeElem n.ch k (clamp s.params raw) }) ∨
    (∃ t0, i = .snkTick t0 ∧ m = { n with snkLink := snkLinkTicked s.params t0 n.lastRxTime }) ∨
    (∃ m' d, i = .encFire n.tmrDeadline ∧ Legal s.params ∧ RxInv s.params n ∧
      encoderBranch s.params n = some (m', d) ∧ m = { m' with tmrDeadline := add32 n.tmrDeadline d }) := by
  cases i with
  | rxHdr t0 len =>
    obtain ⟨n', ⟨hn', -⟩, hcases⟩ := execRxHdr_next h
    obtain rfl := Node.rx.inj (hn.symm.trans hn')
    refine .inl ⟨t0, len, rfl, ?_⟩
    obtain ⟨hlen, rfl⟩ | ⟨-, rfl⟩ := hcases
    · exact .inl ⟨hlen, (Node.rx.inj hm).symm⟩
    · exact .inr (Node.rx.inj hm).symm
  | rxSt t0 k raw =>
    obtain ⟨n', ⟨hn', -⟩, rfl⟩ := execRxSt_next h
    obtain rfl := Node.rx.inj (hn.symm.trans hn')
    exact .inr (.inl ⟨t0, k, raw, rfl, (Node.rx.inj hm).symm⟩)
  | snkTick t0 =>
    obtain ⟨n', ⟨hn', -⟩, rfl⟩ := execSnkTick_next h
    obtain rfl := Node.rx.inj (hn.symm.trans hn')
    exact .inr (.inr (.inl ⟨t0, rfl, (Node.rx.inj hm).symm⟩))
  | encFire t0 =>
    obtain ⟨n', m', d, ⟨hn', hlegal, -, hinv⟩, rfl, hbranch, rfl⟩ := execEncFire_next h
    obtain rfl := Node.rx.inj (hn.symm.trans hn')
    exact .inr (.inr (.inr ⟨m', d, rfl, hlegal, hinv, hbranch, (Node.rx.inj hm).symm⟩))
  | decEdge t0 => exact absurd h (takeTx_ne_next_of_rx hn)
  | srcChk t0 => exact absurd h (takeTx_ne_next_of_rx hn)
  | srcLd t0 k => exact absurd h (takeTx_ne_next_of_rx hn)
  | srcSend t0 => exact absurd h (takeTx_ne_next_of_rx hn)
  | reset t0 => exact absurd rfl (hi t0)

end Changes

theorem not_active_of_lost {l : LinkState} (hlost : l = .lost) (hactive : l = .active) : False := by
  rw [hlost] at hactive
  cases hactive

/-- The check only ever takes the link to LOST, and only past the threshold (R100). -/
theorem srcLinkChecked_eq {p : Params} {t lastEdge : Time} (old : LinkState) :
    srcLinkChecked p t lastEdge old = old ∨
      srcLinkChecked p t lastEdge old = .lost ∧ p.srcLossThreshold < (elapsed t lastEdge).toNat := by
  obtain hloss | hlive := lt_or_ge p.srcLossThreshold (elapsed t lastEdge).toNat
  · exact .inr ⟨srcLinkChecked_of_exceeds hloss old, hloss⟩
  · exact .inl (srcLinkChecked_of_within hlive old)

/-- Settles O37: by what each operation changes. -/
theorem txRegistersHaveTheirWriters : Obligations.TxRegistersHaveTheirWriters := by
  intro i s t n m hi h hn hm
  obtain ⟨t0, rfl, hbuf, hlink⟩ | ⟨t0, rfl, rfl⟩ | ⟨t0, k, v, rfl, rfl⟩ | ⟨t0, rfl, rfl⟩ := exec_tx_change hi h hn hm
  · refine ⟨fun hne => absurd hbuf hne, fun _ => ⟨t0, rfl⟩, fun _ => ⟨t0, rfl⟩, fun _ => ⟨t0, rfl⟩,
      fun hactive hlost => ?_, fun hlost hactive => ⟨t0, rfl, ?_⟩⟩
    · obtain hsame | ⟨-, hnew⟩ := hlink
      · exact (not_active_of_lost hlost (hsame.trans hactive)).elim
      · exact (not_active_of_lost hlost hnew).elim
    · obtain hsame | ⟨hgap, -⟩ := hlink
      · exact (not_active_of_lost (hsame.trans hlost) hactive).elim
      · exact hgap
  · refine ⟨fun hne => absurd rfl hne, fun hne => absurd rfl hne, fun hne => absurd rfl hne, fun hne => absurd rfl hne,
      fun hactive hlost => ⟨t0, rfl, ?_⟩, fun hlost hactive => ?_⟩
    · obtain hsame | ⟨-, hloss⟩ := srcLinkChecked_eq (p := s.params) (t := t0) (lastEdge := n.lastEdgeTime) n.srcLink
      · exact (not_active_of_lost hlost (hsame.trans hactive)).elim
      · exact hloss
    · obtain hsame | ⟨hnew, -⟩ := srcLinkChecked_eq (p := s.params) (t := t0) (lastEdge := n.lastEdgeTime) n.srcLink
      · exact (not_active_of_lost (hsame.trans hlost) hactive).elim
      · exact (not_active_of_lost hnew hactive).elim
  · exact ⟨fun _ => ⟨t0, k, rfl⟩, fun hne => absurd rfl hne, fun hne => absurd rfl hne, fun hne => absurd rfl hne,
      fun hactive hlost => (not_active_of_lost hlost hactive).elim,
      fun hlost hactive => (not_active_of_lost hlost hactive).elim⟩
  · exact ⟨fun hne => absurd rfl hne, fun hne => absurd rfl hne, fun hne => absurd rfl hne, fun hne => absurd rfl hne,
      fun hactive hlost => (not_active_of_lost hlost hactive).elim,
      fun hlost hactive => (not_active_of_lost hlost hactive).elim⟩

/-- Settles O38: by what each operation changes; a store writes the one element at its index. -/
theorem rxRegistersHaveTheirWriters : Obligations.RxRegistersHaveTheirWriters := by
  intro i s t n m hi h hn hm
  obtain ⟨t0, len, rfl, ⟨hlen, rfl⟩ | rfl⟩ | ⟨t0, k, raw, rfl, rfl⟩ | ⟨t0, rfl, rfl⟩ | ⟨m', d, rfl, -, -, hbranch, rfl⟩ :=
    exec_rx_change hi h hn hm
  · exact ⟨fun k hne => absurd rfl hne, fun _ => ⟨t0, len, rfl, hlen⟩, fun hne => absurd rfl hne,
      fun hne => absurd rfl hne⟩
  · exact ⟨fun k hne => absurd rfl hne, fun hne => absurd rfl hne, fun hne => absurd rfl hne,
      fun hne => absurd rfl hne⟩
  · refine ⟨fun j hne => ⟨t0, k, raw, rfl, ?_⟩, fun hne => absurd rfl hne, fun hne => absurd rfl hne,
      fun hne => absurd rfl hne⟩
    by_contra hj
    exact hne (writeElem_get_ne hj)
  · exact ⟨fun k hne => absurd rfl hne, fun hne => absurd rfl hne, fun _ => ⟨t0, rfl⟩, fun hne => absurd rfl hne⟩
  · obtain ⟨hch, hlast, hlink⟩ := sinkView_eq_iff.mp (encoderBranch_sinkView hbranch)
    exact ⟨fun k hne => absurd (congrArg (·[k]?) hch) hne, fun hne => absurd hlast hne, fun hne => absurd hlink hne,
      fun _ => rfl⟩

end Sys2Proof.Proofs
end

section
/-! PROOFS. The records of an operation (spec/00_scope.md R13), and the recovery of the source (spec/41_source_supervisor.md
R105). -/

namespace Sys2Proof.Proofs

open Sys2Proof.Machine Sys2Proof.Laws

/-- What R13 asks of the records `out` of operation `i` from `s` to `t`. -/
def RecordsAre (i : Instr) (s t : State) (out : List Output) : Prop :=
  t.log = s.log ++ out ∧ (∀ o ∈ out, o.time = i.time) ∧
    (∀ t0 l, .ppm t0 l ∈ out ↔ (i = .encFire t0 ∧ t.node.ppmLevel = some l)) ∧
    (∀ t0 a bs, .send t0 a bs ∈ out ↔
      (i = .srcSend t0 ∧ a = s.params.peerAddr ∧
        ∃ n, s.node = .tx n ∧ n.srcLink = .active ∧ bs = payloadBytes n.txBuf))

section Records
variable {i : Instr} {s : State} {n : Node}

theorem eq_status_of_mem_statusRecord {t : Time} {old new : LinkState} {o : Output} (h : o ∈ statusRecord t old new) :
    o = .status t new.status := by
  rw [statusRecord] at h
  split at h
  · cases h
  · exact List.mem_singleton.mp h

/-- An operation that is neither ENC_FIRE nor a send on a live source logs STATUS records at most. -/
theorem recordsAre_of_quiet {out : List Output} (hout : ∀ o ∈ out, ∃ l, o = .status i.time l)
    (hfire : ∀ t0, i ≠ .encFire t0) (hsend : ∀ t0 m, i = .srcSend t0 → s.node = .tx m → m.srcLink = .lost) :
    RecordsAre i s (s.putNode n out) out := by
  refine ⟨rfl, fun o ho => ?_, fun t0 l => ⟨fun h => ?_, fun ⟨h, _⟩ => absurd h (hfire t0)⟩,
    fun t0 a bs => ⟨fun h => ?_, fun ⟨h, _, m, hm, hactive, _⟩ => ?_⟩⟩
  · obtain ⟨l, rfl⟩ := hout o ho
    rfl
  · obtain ⟨l', hl⟩ := hout _ h
    cases hl
  · obtain ⟨l', hl⟩ := hout _ h
    cases hl
  · exact (not_active_of_lost (hsend t0 m h hm) hactive).elim

theorem recordsAre_nil (hfire : ∀ t0, i ≠ .encFire t0)
    (hsend : ∀ t0 m, i = .srcSend t0 → s.node = .tx m → m.srcLink = .lost) : RecordsAre i s (s.putNode n []) [] :=
  recordsAre_of_quiet (fun _ ho => (List.not_mem_nil ho).elim) hfire hsend

theorem recordsAre_statusRecord {old new : LinkState} (hfire : ∀ t0, i ≠ .encFire t0)
    (hsend : ∀ t0, i ≠ .srcSend t0) :
    RecordsAre i s (s.putNode n (statusRecord i.time old new)) (statusRecord i.time old new) :=
  recordsAre_of_quiet (fun _ ho => ⟨_, eq_status_of_mem_statusRecord ho⟩) hfire fun t0 _ h => absurd h (hsend t0)

theorem recordsAre_send {t : Time} {m : TxNode} (hm : s.node = .tx m) (hactive : m.srcLink = .active) :
    RecordsAre (.srcSend t) s (s.putNode n [.send t s.params.peerAddr (payloadBytes m.txBuf)])
      [.send t s.params.peerAddr (payloadBytes m.txBuf)] := by
  refine ⟨rfl, fun o ho => by rw [List.mem_singleton.mp ho]; rfl, fun t0 l => by simp, fun t0 a bs => ?_⟩
  simp only [List.mem_singleton, Output.send.injEq, Instr.srcSend.injEq]
  constructor
  · rintro ⟨rfl, rfl, rfl⟩
    exact ⟨rfl, rfl, m, hm, hactive, rfl⟩
  · rintro ⟨rfl, rfl, m', hm', -, rfl⟩
    obtain rfl := Node.tx.inj (hm.symm.trans hm')
    exact ⟨rfl, rfl, rfl⟩

theorem recordsAre_ppm {t : Time} {m : RxNode} :
    RecordsAre (.encFire t) s (s.putNode (.rx m) [.ppm t m.ppmOut]) [.ppm t m.ppmOut] := by
  refine ⟨rfl, fun o ho => by rw [List.mem_singleton.mp ho]; rfl, fun t0 l => ?_, fun t0 a bs => by simp⟩
  simp only [List.mem_singleton, Output.ppm.injEq, Instr.encFire.injEq, putNode_node, Node.ppmLevel,
    Option.some.injEq]
  exact and_congr eq_comm eq_comm

end Records

/-- The records of every operation but RESET, by the operation. -/
theorem exec_recordsAre {i : Instr} {s t : State} (hi : ∀ t0, i ≠ .reset t0) (h : exec i s = .next t) :
    ∃ out, RecordsAre i s t out := by
  cases i with
  | decEdge t0 =>
    obtain ⟨n, -, ⟨-, rfl⟩ | ⟨-, -, rfl⟩ | ⟨-, -, rfl⟩⟩ := execDecEdge_next h
    · exact ⟨_, recordsAre_statusRecord (i := .decEdge t0) (by simp) (by simp)⟩
    · exact ⟨_, recordsAre_nil (by simp) (by simp)⟩
    · exact ⟨_, recordsAre_nil (by simp) (by simp)⟩
  | srcChk t0 =>
    obtain ⟨n, -, rfl⟩ := execSrcChk_next h
    exact ⟨_, recordsAre_statusRecord (i := .srcChk t0) (by simp) (by simp)⟩
  | srcLd t0 k =>
    obtain ⟨n, v, -, -, rfl⟩ := execSrcLd_next h
    exact ⟨_, recordsAre_nil (by simp) (by simp)⟩
  | srcSend t0 =>
    obtain ⟨n, ⟨hn, -⟩, ⟨hactive, rfl⟩ | ⟨hlost, rfl⟩⟩ := execSrcSend_next h
    · exact ⟨_, recordsAre_send hn hactive⟩
    · refine ⟨_, recordsAre_nil (by simp) fun _ m _ hm => ?_⟩
      rwa [← Node.tx.inj (hn.symm.trans hm)]
  | rxHdr t0 len =>
    obtain ⟨n, -, ⟨-, rfl⟩ | ⟨-, rfl⟩⟩ := execRxHdr_next h
    · exact ⟨_, recordsAre_nil (by simp) (by simp)⟩
    · exact ⟨_, recordsAre_nil (by simp) (by simp)⟩
  | rxSt t0 k raw =>
    obtain ⟨n, -, rfl⟩ := execRxSt_next h
    exact ⟨_, recordsAre_nil (by simp) (by simp)⟩
  | snkTick t0 =>
    obtain ⟨n, -, rfl⟩ := execSnkTick_next h
    exact ⟨_, recordsAre_statusRecord (i := .snkTick t0) (by simp) (by simp)⟩
  | encFire t0 =>
    obtain ⟨n, m, d, -, -, -, rfl⟩ := execEncFire_next h
    exact ⟨_, recordsAre_ppm (m := { m with tmrDeadline := add32 n.tmrDeadline d })⟩
  | reset t0 => exact absurd rfl (hi t0)

/-- Settles O41. -/
theorem recordsOfAnOperation : Obligations.RecordsOfAnOperation :=
  fun _ _ _ hi h => exec_recordsAre hi h

/-- Settles O34: while LOST nothing is sent; the sync edge leaves the link ACTIVE and the snapshot alone. -/
theorem syncEdgeClearsLossAtOnce : Obligations.SyncEdgeClearsLossAtOnce := by
  intro s n t t' hn hlegal hinv hlost hgap
  have hedge := exec_decEdge_of_gap (t := t) hn hlegal hinv hgap
  have hsend := exec_srcSend_of_active (t := t') (n := afterSync t n)
    (s := s.putNode (.tx (afterSync t n)) (statusRecord t n.srcLink .active)) rfl hlegal (afterSync_txInv hinv) rfl
  refine ⟨exec_srcSend_of_lost hn hlegal hinv hlost, _, _, hedge, hsend, ?_⟩
  rw [putNode_log, putNode_log, statusRecord_to_active, if_pos hlost, List.append_assoc]
  rfl

end Sys2Proof.Proofs
end

section
/-! PROOFS. The encoder in time (spec/43_encoder.md section 3): no expiry is skipped, and the frame's start. -/

namespace Sys2Proof.Proofs

open Sys2Proof.Machine Sys2Proof.Laws

/-! ### Segment lengths -/

section Segments
variable {p : Params} {n : RxNode} {seg : Segment} (hlegal : Legal p)
include hlegal

/-- R121: the low period of a channel at least as long as its pulse. -/
theorem lowPeriod_eq_sub {v : Channel} (hv : p.pulseWidth ≤ v.toNat) :
    satsub (zext32 v) (micros p.pulseWidth) = zext32 v - micros p.pulseWidth :=
  satsub_of_le (by rwa [micros_pulseWidth_toNat hlegal, zext32_toNat])

/-- R124: what is left of the frame period. -/
theorem frameGap_eq_sub (hinv : RxInv p n) :
    satsub (micros p.framePeriod) (n.encSum + micros p.pulseWidth) =
      micros p.framePeriod - (n.encSum + micros p.pulseWidth) := by
  have hfits := encSum_add_pulseWidth_le hlegal hinv
  have hpulse := micros_pulseWidth_toNat hlegal
  have hperiod := framePeriod_lt_of_legal hlegal
  refine satsub_of_le ?_
  rwa [add_toNat_of_lt (by omega), hpulse, micros_framePeriod_toNat hlegal]

/-- Every segment is shorter than 2^31 (R9(f)). -/
theorem encoderBranch_duration (hbranch : encoderBranch p n = some seg) : seg.2.toNat < 2 ^ 31 := by
  have hbudget := frameBudget_of_legal hlegal
  have hperiod := framePeriod_lt_of_legal hlegal
  have hpulse : (micros p.pulseWidth).toNat < 2 ^ 31 := by
    rw [micros_pulseWidth_toNat hlegal]
    omega
  obtain ⟨-, v, -, rfl⟩ | ⟨-, -, rfl⟩ | ⟨-, -, rfl⟩ | ⟨-, rfl⟩ | ⟨-, rfl⟩ := encoderBranch_some hbranch
  · have hv := v.isLt
    rw [endChannelPulse, satsub_toNat, zext32_toNat]
    omega
  · exact hpulse
  · exact hpulse
  · rw [startFrameGap, satsub_toNat, micros_framePeriod_toNat hlegal]
    omega
  · exact hpulse

end Segments

/-! ### No expiry is skipped (R130) -/

/-- Times modulo 2^32: a deadline not behind `now` is not behind a later `t` that is not past it. -/
theorem deadline_ahead {deadline now t : Time} (hahead : (deadline - now).toNat < 2 ^ 31)
    (htime : (t - now).toNat < 2 ^ 31) (hdue : t = deadline ∨ 2 ^ 31 ≤ (t - deadline).toNat) :
    (deadline - t).toNat < 2 ^ 31 := by
  obtain rfl | hdue := hdue
  · simp
  · bv_omega

/-- One operation keeps the deadline at or after its own time. -/
theorem exec_timerAhead {i : Instr} {s t : State} (h : exec i s = .next t)
    (hbefore : (∀ t0, i ≠ .reset t0) → ∀ n, s.node = .rx n → (n.tmrDeadline - i.time).toNat < 2 ^ 31) :
    ∀ m, t.node = .rx m → (m.tmrDeadline - i.time).toNat < 2 ^ 31 := by
  intro m hm
  by_cases hreset : ∃ t0, i = .reset t0
  · obtain ⟨t0, rfl⟩ := hreset
    obtain ⟨hlegal, rfl⟩ := execReset_next h
    cases hrole : s.role with
    | tx => rw [hrole] at hm; cases hm
    | rx =>
      rw [hrole] at hm
      obtain rfl := Node.rx.inj hm
      exact rxReset_tmrDeadline_sub hlegal t0
  · have hi := not_exists.mp hreset
    obtain ⟨n', out, hrole, rfl⟩ := exec_onlyNodeChanged h
    obtain ⟨n, hn⟩ : ∃ n, s.node = .rx n := by
      obtain rfl : n' = .rx m := hm
      exact node_of_role_rx hrole.symm
    have hahead := hbefore hi n hn
    obtain ⟨t0, len, rfl, ⟨-, rfl⟩ | rfl⟩ | ⟨t0, k, raw, rfl, rfl⟩ | ⟨t0, rfl, rfl⟩ |
      ⟨m', d, rfl, hlegal, -, hbranch, rfl⟩ := exec_rx_change hi h hn hm
    · exact hahead
    · exact hahead
    · exact hahead
    · exact hahead
    · have helapsed := elapsed_add32 n.tmrDeadline d
      rw [elapsed] at helapsed
      show (add32 n.tmrDeadline d - n.tmrDeadline).toNat < 2 ^ 31
      rw [helapsed]
      exact encoderBranch_duration hlegal hbranch

/-- Settles O46: R81(b) and (c) let no operation but the expiry itself pass the deadline, and the expiry re-arms it less
than 2^31 ahead. -/
theorem everyStepKeepsTimerAhead : Obligations.EveryStepKeepsTimerAhead := by
  intro s t hinv hahead h
  obtain ⟨-, ⟨-, rfl⟩ | ⟨w, rest, i, m, -, -, hobserve, hexec⟩⟩ := step_next h
  · exact hahead
  · have hnow : t.monitor.now = i.time := by
      obtain ⟨n, out, -, rfl⟩ := exec_onlyNodeChanged hexec
      obtain ⟨-, -, rfl⟩ | ⟨-, -, -, window, -, rfl⟩ := observe_ok hobserve <;> rfl
    intro n' hn'
    rw [notBefore_iff, hnow]
    refine exec_timerAhead hexec (fun hi n hn => ?_) n' hn'
    obtain ⟨-, hreset, -⟩ | ⟨-, htime, hdue, -⟩ := observe_ok hobserve
    · rw [isReset_eq_false hi] at hreset
      cases hreset
    · exact deadline_ahead (notBefore_iff.mp (hahead n hn)) (notBefore_iff.mp htime)
        (overdue_eq_false_iff.mp hdue n hn)

/-! ### The frame's start time (R127, R132) -/

/-- An ENC_FIRE moves the frame's start by one period where it ends the gap, and by nothing elsewhere. -/
theorem encoderBranch_frameStart {p : Params} {n : RxNode} {seg : Segment} (hlegal : Legal p) (hinv : RxInv p n)
    (hbranch : encoderBranch p n = some seg) :
    ({ seg.1 with tmrDeadline := add32 n.tmrDeadline seg.2 } : RxNode).frameStart p =
      if n.encState = .frameGap ∧ seg.1.encState = .pulseHigh then n.frameStart p + micros p.framePeriod
      else n.frameStart p := by
  obtain ⟨hstate, v, hread, rfl⟩ | ⟨hstate, -, rfl⟩ | ⟨hstate, -, rfl⟩ | ⟨hstate, rfl⟩ | ⟨hstate, rfl⟩ :=
    encoderBranch_some hbranch
  · obtain ⟨v', hread', hpulse, -⟩ := readElem_of_pulseHigh hlegal hinv hstate
    obtain rfl := Option.some.inj (hread.symm.trans hread')
    simp only [endChannelPulse, lowPeriod_eq_sub hlegal hpulse, RxNode.frameStart, hstate, add32, reduceCtorEq,
      false_and, if_false]
    ring
  · simp only [startNextPulse, RxNode.frameStart, hstate, add32, reduceCtorEq, false_and, if_false]
    ring
  · simp only [startMarkerPulse, RxNode.frameStart, hstate, add32, reduceCtorEq, false_and, if_false]
    ring
  · simp only [startFrameGap, frameGap_eq_sub hlegal hinv, RxNode.frameStart, hstate, add32, reduceCtorEq, false_and,
      if_false]
    ring
  · obtain ⟨-, -, -, -, hgap⟩ := phaseInv_of_rxInv hinv
    obtain ⟨-, hsum⟩ := hgap hstate
    simp only [startFrame, RxNode.frameStart, hstate, hsum, add32, and_self, if_true]
    ring

/-- Settles O51: no other operation writes an encoder register. -/
theorem frameStartMovesByOnePeriod : Obligations.FrameStartMovesByOnePeriod := by
  intro i s t n m hi h hn hm
  have stays (hstate : m.encState = n.encState) : ¬ (n.encState = .frameGap ∧ m.encState = .pulseHigh) := by
    rintro ⟨hgap, hhigh⟩
    cases hgap.symm.trans (hstate.symm.trans hhigh)
  obtain ⟨t0, len, rfl, ⟨-, rfl⟩ | rfl⟩ | ⟨t0, k, raw, rfl, rfl⟩ | ⟨t0, rfl, rfl⟩ |
    ⟨m', d, rfl, hlegal, hinv, hbranch, rfl⟩ := exec_rx_change hi h hn hm
  · rw [if_neg (stays rfl)]; rfl
  · rw [if_neg (stays rfl)]
  · rw [if_neg (stays rfl)]; rfl
  · rw [if_neg (stays rfl)]; rfl
  · exact encoderBranch_frameStart hlegal hinv hbranch

end Sys2Proof.Proofs
end

section
/-! PROOFS. The frame table and its repetition (spec/43_encoder.md R126, R129). -/

namespace Sys2Proof.Proofs

open Sys2Proof.Machine Sys2Proof.Laws

theorem execAll_append_of_next {is js : List Instr} {s t : State} (h : execAll is s = .next t) :
    execAll (is ++ js) s = execAll js t := by
  induction is generalizing s with
  | nil =>
    cases h
    rfl
  | cons i is ih =>
    rw [execAll] at h
    cases hexec : exec i s with
    | next u =>
      rw [hexec] at h
      rw [List.cons_append, execAll_cons_of_next hexec, ih h]
    | fault f => rw [hexec] at h; cases h
    | refused r => rw [hexec] at h; cases h

/-- The registers in the gap before the frame that starts at `t`. -/
def gapAt (t : Time) (n : RxNode) : RxNode :=
  { n with encState := .frameGap, encIdx := 0, encSum := 0, ppmOut := false, tmrDeadline := t }

/-- In the gap the bookkeeping is at 0 and the output low (R40(b), R40(c)). -/
theorem gapAt_of_frameGap {p : Params} {n : RxNode} (hinv : RxInv p n) (hstate : n.encState = .frameGap) (t : Time) :
    gapAt t n = { n with tmrDeadline := t } := by
  obtain ⟨-, -, -, ⟨-, -, -, -, hgap⟩, hlevel, -⟩ := rxInv_iff.mp hinv
  obtain ⟨hidx, hsum⟩ := hgap hstate
  have hout : n.ppmOut = false := Bool.eq_false_of_not_eq_true (mt hlevel.mp (by simp [hstate]))
  rw [gapAt, hstate, hidx, hsum, hout]

@[simp] theorem firesAt_cons (t : Time) (ts : List Time) : firesAt (t :: ts) = .encFire t :: firesAt ts := rfl

/-- ENC_FIRE at the times of some rows. -/
def firesOf (rows : List (Time × Bool)) : List Instr := firesAt (rows.map Prod.fst)

/-- The encoder is about to start the pulse of the channel at `enc_idx`, or the marker pulse after the last. -/
def AtRise (n : RxNode) : Prop := n.encState = .frameGap ∨ n.encState = .pulseLowChannel

/-- R122, R125: the branch that starts a channel's pulse. -/
theorem encoderBranch_of_rise {p : Params} {n : RxNode} (hrise : AtRise n) (hidx : n.encIdx.toNat < p.nCh) :
    encoderBranch p n =
      some ({ n with ppmOut := true, encState := .pulseHigh }, micros p.pulseWidth) := by
  obtain hstate | hstate := hrise
  · exact encoderBranch_of_frameGap hstate
  · exact encoderBranch_of_pulseLowChannel_lt hstate hidx

/-- The registers at the next rise, after the pulse and the low period of a channel of value `v`. -/
def afterChannel (v : Channel) (n : RxNode) : RxNode :=
  { n with
    ppmOut := false
    encSum := n.encSum + zext32 v
    encIdx := n.encIdx + 1
    encState := .pulseLowChannel
    tmrDeadline := n.tmrDeadline + zext32 v }

theorem afterChannel_rxInv {p : Params} {n : RxNode} {v : Channel} (hlegal : Legal p) (hinv : RxInv p n)
    (hidx : n.encIdx.toNat < p.nCh) (hread : readElem n.ch n.encIdx = some v) : RxInv p (afterChannel v n) :=
  endChannelPulse_rxInv hlegal (startPulse_rxInv hinv hidx) rfl hread

section Table
variable {s : State} {n : RxNode} (hlegal : Legal s.params) (hinv : RxInv s.params n)
include hlegal hinv

/-- After the last channel the encoder is in its low period. -/
theorem pulseLowChannel_of_rise (hrise : AtRise n) (hidx : n.encIdx.toNat = s.params.nCh) :
    n.encState = .pulseLowChannel := by
  obtain hstate | hstate := hrise
  · exact absurd hidx (encIdx_lt_of_frameGap hlegal hinv hstate).ne
  · exact hstate

variable (hn : s.node = .rx n)
include hn

/-- A rise and the fall after it: two ENC_FIREs, by their branches. -/
theorem execAll_two_fires {m m' : RxNode} {d d' : Time} (hrise : encoderBranch s.params n = some (m, d))
    (hfall : encoderBranch s.params { m with tmrDeadline := n.tmrDeadline + d } = some (m', d')) (ts : List Time) :
    execAll (firesAt (n.tmrDeadline :: (n.tmrDeadline + d) :: ts)) s =
      execAll (firesAt ts) (s.putNode (.rx { m' with tmrDeadline := n.tmrDeadline + d + d' })
        [.ppm n.tmrDeadline m.ppmOut, .ppm (n.tmrDeadline + d) m'.ppmOut]) := by
  have hfirst := exec_encFire_of_branch hn hlegal hinv hrise
  have hsecond := exec_encFire_of_branch (n := { m with tmrDeadline := n.tmrDeadline + d })
    (putNode_node s _ [.ppm n.tmrDeadline m.ppmOut]) hlegal (encoderBranch_rxInv hlegal hinv hrise) hfall
  rw [firesAt_cons, firesAt_cons, execAll_cons_of_next hfirst, execAll_cons_of_next hsecond, putNode_putNode]
  rfl

/-- The last two rows: the marker pulse, and the gap that fills the frame (R123, R124). -/
theorem execAll_marker (hrise : AtRise n) (hidx : n.encIdx.toNat = s.params.nCh) :
    execAll (firesOf (frameRows s.params n.tmrDeadline [])) s = .next
      (s.putNode (.rx (gapAt (n.tmrDeadline - n.encSum + micros s.params.framePeriod) n))
        (ppmRecords (frameRows s.params n.tmrDeadline []))) := by
  have hup := encoderBranch_of_pulseLowChannel_eq (pulseLowChannel_of_rise hlegal hinv hrise hidx) hidx
  have hdown := encoderBranch_of_pulseLowSync (p := s.params)
    (n := { (startMarkerPulse s.params n).1 with tmrDeadline := n.tmrDeadline + micros s.params.pulseWidth }) rfl
  have hend : n.tmrDeadline + micros s.params.pulseWidth +
      satsub (micros s.params.framePeriod) (n.encSum + micros s.params.pulseWidth) =
        n.tmrDeadline - n.encSum + micros s.params.framePeriod := by
    rw [frameGap_eq_sub hlegal hinv]
    ring
  rw [← hend]
  exact execAll_two_fires hlegal hinv hn hup hdown []

/-- Two rows of the table: a channel's pulse and its low period (R122 or R125, R121). -/
theorem execAll_channel {v : Channel} (hrise : AtRise n) (hidx : n.encIdx.toNat < s.params.nCh)
    (hread : readElem n.ch n.encIdx = some v) (ts : List Time) :
    execAll (firesAt (n.tmrDeadline :: (n.tmrDeadline + micros s.params.pulseWidth) :: ts)) s =
      execAll (firesAt ts) (s.putNode (.rx (afterChannel v n))
        [.ppm n.tmrDeadline true, .ppm (n.tmrDeadline + micros s.params.pulseWidth) false]) := by
  obtain ⟨-, hmin, -⟩ := rxInv_iff.mp hinv
  obtain ⟨-, ⟨hpulse, -⟩, -⟩ := legal_iff.mp hlegal
  have hup := encoderBranch_of_rise hrise hidx
  have hdown := encoderBranch_of_pulseHigh (p := s.params)
    (n := { n with
      ppmOut := true
      encState := .pulseHigh
      tmrDeadline := n.tmrDeadline + micros s.params.pulseWidth }) rfl hread
  have hend : n.tmrDeadline + micros s.params.pulseWidth + satsub (zext32 v) (micros s.params.pulseWidth) =
      n.tmrDeadline + zext32 v := by
    rw [lowPeriod_eq_sub hlegal (hpulse.trans (le_readElem hmin hread))]
    ring
  rw [execAll_two_fires hlegal hinv hn hup hdown, hend]
  rfl

end Table

/-- From a rise on, ENC_FIRE at the rows of the values still to come emits those rows and ends in the gap, one period
after the frame's start. -/
theorem execAll_frameRows {s : State} {n : RxNode} {vs : List Channel} (hn : s.node = .rx n) (hlegal : Legal s.params)
    (hinv : RxInv s.params n) (hrise : AtRise n) (hvs : n.ch.drop n.encIdx.toNat = vs) :
    execAll (firesOf (frameRows s.params n.tmrDeadline vs)) s = .next
      (s.putNode (.rx (gapAt (n.tmrDeadline - n.encSum + micros s.params.framePeriod) n))
        (ppmRecords (frameRows s.params n.tmrDeadline vs))) := by
  induction vs generalizing s n with
  | nil =>
    obtain ⟨hlen, -⟩ := rxInv_iff.mp hinv
    obtain ⟨hle, -⟩ := phaseInv_of_rxInv hinv
    have hidx : n.encIdx.toNat = s.params.nCh := hle.antisymm (hlen ▸ List.drop_eq_nil_iff.mp hvs)
    exact execAll_marker hlegal hinv hn hrise hidx
  | cons v vs ih =>
    obtain ⟨hlen, -⟩ := rxInv_iff.mp hinv
    have hidx : n.encIdx.toNat < n.ch.length := by
      by_contra hge
      rw [List.drop_eq_nil_of_le (not_lt.mp hge)] at hvs
      cases hvs
    rw [List.drop_eq_getElem_cons hidx] at hvs
    obtain ⟨hv, hrest⟩ := List.cons.inj hvs
    have hread : readElem n.ch n.encIdx = some v := by rw [readElem_of_lt hidx, hv]
    rw [hlen] at hidx
    have hsucc := index_succ_toNat hlegal hidx
    have hinv' := afterChannel_rxInv hlegal hinv hidx hread
    have htail := ih (n := afterChannel v n)
      (putNode_node s _ [.ppm n.tmrDeadline true, .ppm (n.tmrDeadline + micros s.params.pulseWidth) false])
      hlegal hinv' (.inr rfl) (by rw [← hrest, ← hsucc]; rfl)
    have hend : n.tmrDeadline + zext32 v - (n.encSum + zext32 v) = n.tmrDeadline - n.encSum := by ring
    refine (execAll_channel hlegal hinv hn hrise hidx hread _).trans (htail.trans ?_)
    rw [putNode_putNode, afterChannel, hend]
    rfl

/-- A whole frame, from the gap to the gap. -/
theorem execAll_frame {s : State} {n : RxNode} (hn : s.node = .rx n) (hlegal : Legal s.params)
    (hinv : RxInv s.params n) (hstate : n.encState = .frameGap) :
    execAll (firesOf (frameRows s.params n.tmrDeadline n.ch)) s = .next
      (s.putNode (.rx { n with tmrDeadline := n.tmrDeadline + micros s.params.framePeriod })
        (ppmRecords (frameRows s.params n.tmrDeadline n.ch))) := by
  obtain ⟨-, -, -, -, hgap⟩ := phaseInv_of_rxInv hinv
  obtain ⟨hidx, hsum⟩ := hgap hstate
  have hframe := execAll_frameRows hn hlegal hinv (.inl hstate) rfl
  have hzero : n.ch.drop n.encIdx.toNat = n.ch := by rw [hidx]; rfl
  have hend : n.tmrDeadline - n.encSum + micros s.params.framePeriod =
      n.tmrDeadline + micros s.params.framePeriod := by rw [hsum]; ring
  rwa [hzero, hend, gapAt_of_frameGap hinv hstate] at hframe

/-- Settles O49. -/
theorem encoderEmitsTheFrameTable : Obligations.EncoderEmitsTheFrameTable :=
  fun _ _ hn hlegal hinv hstate => execAll_frame hn hlegal hinv hstate

/-! ### Repetition (R129) -/

section Rows
variable (p : Params) (t : Time) (vs : List Channel)

theorem frameRows_length : (frameRows p t vs).length = 2 * (vs.length + 1) := by
  induction vs generalizing t with
  | nil => rfl
  | cons v vs ih =>
    rw [frameRows, List.length_cons, List.length_cons, ih, List.length_cons]
    omega

/-- A frame that starts `d` later has its rows `d` later. -/
theorem frameRows_add (d : Time) : frameRows p (t + d) vs = (frameRows p t vs).map (fun r => (r.1 + d, r.2)) := by
  induction vs generalizing t with
  | nil => simp only [frameRows, List.map_cons, List.map_nil, add32, add_right_comm]
  | cons v vs ih => simp only [frameRows, List.map_cons, add32, add_right_comm t d, ih]

end Rows

theorem firesAt_append (ts us : List Time) : firesAt (ts ++ us) = firesAt ts ++ firesAt us := List.map_append

theorem ppmRecords_append (rows rows' : List (Time × Bool)) :
    ppmRecords (rows ++ rows') = ppmRecords rows ++ ppmRecords rows' := List.map_append

/-- Settles O50: the second frame is `execAll_frame` again, from the state the first has left. -/
theorem repeatedFramesAreIdentical : Obligations.RepeatedFramesAreIdentical := by
  intro s n hn hlegal hinv hstate
  have ⟨hlen, _⟩ := rxInv_iff.mp hinv
  have hfirst := execAll_frame hn hlegal hinv hstate
  have hsecond := execAll_frame (n := { n with tmrDeadline := n.tmrDeadline + micros s.params.framePeriod })
    (putNode_node s _ (ppmRecords (frameRows s.params n.tmrDeadline n.ch))) hlegal hinv hstate
  have hboth := (execAll_append_of_next hfirst).trans hsecond
  rw [firesOf, firesOf, ← firesAt_append, ← List.map_append] at hboth
  refine ⟨_, _, _, by rw [frameRows_length, hlen], frameRows_add _ _ _ _, hboth, ?_⟩
  rw [putNode_putNode, putNode_log, ppmRecords_append]
  rfl

end Sys2Proof.Proofs
end

section
/-! PROOFS. A frame the encoder emits, fed to the decoder (spec/43_encoder.md section 3, R128). -/

namespace Sys2Proof.Proofs

open Sys2Proof.Machine Sys2Proof.Laws

/-! ### The falling edges of a frame -/

/-- The intervals between the falling edges of a frame of the values `vs`. -/
def widths (vs : List Channel) : List Time := vs.map zext32

/-- The output falls one pulse after the start of the frame, and then once after each channel's value. -/
theorem fallTimes_frameRows (p : Params) (t : Time) (vs : List Channel) :
    fallTimes (frameRows p t vs) =
      (t + micros p.pulseWidth) :: timesAfter (t + micros p.pulseWidth) (widths vs) := by
  induction vs generalizing t with
  | nil => rfl
  | cons v vs ih =>
    have htail := ih (add32 t (zext32 v))
    rw [add32, add_right_comm] at htail
    exact congrArg _ htail

theorem widths_sum_toNat {vs : List Channel} (h : widthSum vs < 2 ^ 32) : (widths vs).sum.toNat = widthSum vs := by
  induction vs with
  | nil => rfl
  | cons v vs ih =>
    have hsum : widthSum (v :: vs) = v.toNat + widthSum vs := by simp [widthSum]
    have htail := ih (by omega)
    rw [widths, List.map_cons, List.sum_cons, ← widths, add_toNat_of_lt (by rw [zext32_toNat, htail]; omega),
      zext32_toNat, htail, hsum]

theorem widthSum_le {vs : List Channel} {m : Nat} (h : ∀ v ∈ vs, v.toNat ≤ m) : widthSum vs ≤ vs.length * m := by
  have hbound := List.sum_le_card_nsmul (vs.map BitVec.toNat) m (by simpa using h)
  simpa [widthSum] using hbound

/-- R9(e): from the last falling edge of a frame to the first of the next there is a sync gap. -/
theorem syncThreshold_lt_gap {p : Params} (hlegal : Legal p) {vs : List Channel} (hlen : vs.length = p.nCh)
    (hband : ∀ v ∈ vs, v.toNat ≤ p.chMax) : p.syncThreshold < (micros p.framePeriod - (widths vs).sum).toNat := by
  obtain ⟨-, -, -, -, hseparates, -⟩ := legal_iff.mp hlegal
  obtain ⟨-, hgap⟩ := syncSeparates_iff.mp hseparates
  have hperiod := framePeriod_lt_of_legal hlegal
  have hsum := widthSum_le hband
  rw [hlen] at hsum
  have hexact := widths_sum_toNat (vs := vs) (by omega)
  rw [BitVec.toNat_sub_of_le (by rw [BitVec.le_def, hexact, micros_framePeriod_toNat hlegal]; omega), hexact,
    micros_framePeriod_toNat hlegal]
  omega

/-! ### The decoder at those edges -/

section Decoder
variable {p : Params} {n : TxNode} {ds : List Time}

theorem afterPulses_lastEdgeTime : (afterPulses p n ds).lastEdgeTime = n.lastEdgeTime + ds.sum := by
  induction ds generalizing n with
  | nil => simp
  | cons d ds ih => rw [afterPulses_cons, ih, afterPulse_lastEdgeTime, add32, List.sum_cons, add_assoc]

theorem afterPulses_txInv (hlegal : Legal p) (hinv : TxInv p n) (hds : ∀ d ∈ ds, d.toNat ≤ p.syncThreshold) :
    TxInv p (afterPulses p n ds) := by
  induction ds generalizing n with
  | nil => exact hinv
  | cons d ds ih =>
    obtain ⟨hd, hrest⟩ := List.forall_mem_cons.mp hds
    exact ih (afterPulse_txInv hlegal hinv hd) hrest

/-- R9(e): a channel's value is a pulse interval. -/
theorem widths_le_syncThreshold (hlegal : Legal p) {vs : List Channel} (hband : ∀ v ∈ vs, v.toNat ≤ p.chMax) :
    ∀ d ∈ widths vs, d.toNat ≤ p.syncThreshold := by
  intro d hd
  obtain ⟨-, -, -, -, ⟨hchMax, -⟩, -⟩ := legal_iff.mp hlegal
  obtain ⟨v, hv, rfl⟩ := List.mem_map.mp hd
  rw [zext32_toNat]
  exact (hband v hv).trans hchMax

/-- From index 0 each interval goes to the element of its number. -/
theorem afterPulses_ch_get_of_zero (hlegal : Legal p) (hlen : n.ch.length = p.nCh) (hidx : n.decIdx.toNat = 0)
    {k : Nat} {d : Time} (hd : ds[k]? = some d) (hk : k < p.nCh) :
    (afterPulses p n ds).ch[k]? = some (d.setWidth 16) := by
  have hget := afterPulses_ch_get hlegal hlen hd (by omega)
  rwa [hidx, Nat.zero_add] at hget

/-- `N_CH` pulse intervals from index 0 are the whole of `ch`. -/
theorem afterPulses_widths_ch (hlegal : Legal p) (hinv : TxInv p n) (hidx : n.decIdx.toNat = 0) {vs : List Channel}
    (hlen : vs.length = p.nCh) (hband : ∀ v ∈ vs, v.toNat ≤ p.chMax) : (afterPulses p n (widths vs)).ch = vs := by
  obtain ⟨hch, -⟩ := txInv_iff.mp hinv
  obtain ⟨hch', -⟩ := txInv_iff.mp (afterPulses_txInv hlegal hinv (widths_le_syncThreshold hlegal hband))
  refine List.ext_getElem (hch'.trans hlen.symm) fun k hk hk' => Option.some.inj ?_
  have hwidth : (widths vs)[k]? = some (zext32 vs[k]) := by
    rw [widths, List.getElem?_map, List.getElem?_eq_getElem hk', Option.map_some]
  rw [← List.getElem?_eq_getElem hk, afterPulses_ch_get_of_zero hlegal hch hidx hwidth (hlen ▸ hk')]
  simp [zext32]

variable {s : State} (hn : s.node = .tx n) (hlegal : Legal s.params) (hinv : TxInv s.params n)
include hn hlegal hinv

/-- Any edge completes, within the invariants, and is the last edge then. -/
theorem exec_decEdge_any (t : Time) :
    ∃ m out, exec (.decEdge t) s = .next (s.putNode (.tx m) out) ∧ TxInv s.params m ∧ m.lastEdgeTime = t := by
  have hinvs : s.Inv := ⟨hlegal, by rw [hn]; exact hinv⟩
  obtain ⟨u, h⟩ := exec_tx_completes (i := .decEdge t) hinvs rfl hn (fun q hq => (Option.some.inj hq).symm)
  obtain ⟨-, hnode⟩ := exec_next_inv h
  obtain ⟨n', -, ⟨-, rfl⟩ | ⟨-, -, rfl⟩ | ⟨-, -, rfl⟩⟩ := execDecEdge_next h <;> exact ⟨_, _, h, hnode, rfl⟩

/-- A frame's falling edges complete in any state within R40; the last of them is the last edge then. -/
theorem execAll_frameEdges (t : Time) {vs : List Channel} (hband : ∀ v ∈ vs, v.toNat ≤ s.params.chMax) :
    ∃ m out, execAll (edgesAt (t :: timesAfter t (widths vs))) s = .next (s.putNode (.tx m) out) ∧
      TxInv s.params m ∧ m.lastEdgeTime = t + (widths vs).sum := by
  obtain ⟨m, out, hedge, hinv', hlast⟩ := exec_decEdge_any hn hlegal hinv t
  have hds := widths_le_syncThreshold hlegal hband
  have hpulses := execAll_edgesAt_timesAfter (putNode_node s (.tx m) out) hlegal hinv' hds
  have hall := (execAll_cons_of_next hedge).trans (hlast ▸ hpulses)
  rw [putNode_putNode] at hall
  exact ⟨_, _, hall, afterPulses_txInv hlegal hinv' hds, by rw [afterPulses_lastEdgeTime, hlast]⟩

end Decoder

/-- Settles O52: whatever the first frame's edges leave, the gap between the frames is a sync edge, and the intervals
after it are the second frame's values. -/
theorem emittedFrameDecodesToItsValues : Obligations.EmittedFrameDecodesToItsValues := by
  intro s n t us vs hn hlegal hinv hus hvs hband
  have husBand : ∀ v ∈ us, v.toNat ≤ s.params.chMax := fun v hv => (hband v (List.mem_append_left _ hv)).2
  have hvsBand : ∀ v ∈ vs, v.toNat ≤ s.params.chMax := fun v hv => (hband v (List.mem_append_right _ hv)).2
  obtain ⟨m, out, hfirst, hinv', hlast⟩ :=
    execAll_frameEdges hn hlegal hinv (t + micros s.params.pulseWidth) husBand
  have hinterval : elapsed (t + micros s.params.framePeriod + micros s.params.pulseWidth) m.lastEdgeTime =
      micros s.params.framePeriod - (widths us).sum := by
    rw [elapsed, hlast]
    ring
  have hgap := syncThreshold_lt_gap hlegal hus husBand
  rw [← hinterval] at hgap
  have hsecond := execAll_syncedEdges (putNode_node s (.tx m) out) hlegal hinv' hgap
    (widths_le_syncThreshold hlegal hvsBand)
  rw [fallTimes_frameRows, fallTimes_frameRows, edgesAt, List.map_append, ← edgesAt, ← edgesAt]
  refine ⟨_, _, (execAll_append_of_next hfirst).trans hsecond, rfl,
    afterPulses_widths_ch hlegal (afterSync_txInv hinv') rfl hvs hvsBand, ?_, afterPulses_srcLink⟩
  rw [putNode_params, afterPulses_decIdx_toNat hlegal (Nat.zero_le _), widths, List.length_map, hvs]
  simp

end Sys2Proof.Proofs
end

section
/-! PROOFS. Snapshots: a whole tick of the source (spec/30_encoding.md R79), and a torn one (spec/20_memory.md R61). -/

namespace Sys2Proof.Proofs

open Sys2Proof.Machine Sys2Proof.Laws

/-! ### Arrays written from the front -/

/-- The array `old` with its first `k` elements those of `new`. -/
def overlay (k : Nat) (new old : List Channel) : List Channel := new.take k ++ old.drop k

section Overlay
variable {k : Nat} {new old : List Channel}

@[simp] theorem overlay_zero : overlay 0 new old = old := rfl

theorem overlay_length (h : new.length = old.length) : (overlay k new old).length = old.length := by
  rw [overlay, List.length_append, List.length_take, List.length_drop]
  omega

theorem overlay_full (h : new.length = old.length) : overlay new.length new old = new := by
  rw [overlay, List.take_length, h, List.drop_length, List.append_nil]

/-- One more element from the front. -/
theorem writeElem_overlay {i : Index} {v : Channel} (h : new.length = old.length) (hi : i.toNat = k)
    (hv : new[k]? = some v) : writeElem (overlay k new old) i v = overlay (k + 1) new old := by
  obtain ⟨hk, hget⟩ := List.getElem?_eq_some_iff.mp hv
  have htake : (new.take k).length = k := by rw [List.length_take]; omega
  rw [writeElem, hi, overlay, List.set_append_right _ _ htake.le, htake, Nat.sub_self,
    List.drop_eq_getElem_cons (h ▸ hk), List.set_cons_zero, ← hget, overlay, ← List.take_append_getElem hk,
    List.append_assoc]
  rfl

end Overlay

/-- A channel number as an index operand. -/
theorem index_toNat {p : Params} (hlegal : Legal p) {k : Nat} (hk : k < p.nCh) : (BitVec.ofNat 8 k).toNat = k := by
  have hfit := nCh_le_of_legal hlegal
  rw [BitVec.toNat_ofNat, Nat.mod_eq_of_lt (by omega)]

theorem execAll_singleton {i : Instr} {s t : State} (h : exec i s = .next t) : execAll [i] s = .next t :=
  execAll_cons_of_next h

/-! ### One tick of the source (R79) -/

/-- The first `k` loads of a tick. -/
def loads (t : Time) (k : Nat) : List Instr := (List.range k).map (fun j => .srcLd t (BitVec.ofNat 8 j))

section SourceTick
variable {s : State} {n : TxNode} {t : Time}

theorem overlay_txInv {p : Params} (hinv : TxInv p n) (k : Nat) :
    TxInv p { n with txBuf := overlay k n.ch n.txBuf } := by
  obtain ⟨hch, hbuf, hrest⟩ := txInv_iff.mp hinv
  exact txInv_iff.mpr ⟨hch, by rw [overlay_length (hch.trans hbuf.symm), hbuf], hrest⟩

variable (hn : s.node = .tx n) (hlegal : Legal s.params) (hinv : TxInv s.params n)
include hn hlegal hinv

theorem execAll_loads {k : Nat} (hk : k ≤ s.params.nCh) :
    execAll (loads t k) s = .next (s.putNode (.tx { n with txBuf := overlay k n.ch n.txBuf }) []) := by
  obtain ⟨hch, hbuf, -⟩ := txInv_iff.mp hinv
  induction k with
  | zero =>
    rw [overlay_zero, putNode_self hn]
    rfl
  | succ k ih =>
    have hlt : k < s.params.nCh := hk
    have hidx := index_toNat hlegal hlt
    have hread : readElem n.ch (BitVec.ofNat 8 k) = some n.ch[k] := by
      rw [readElem, hidx, List.getElem?_eq_getElem]
    have hload := exec_srcLd_of_readElem (t := t) (putNode_node s (.tx { n with txBuf := overlay k n.ch n.txBuf }) [])
      hlegal (overlay_txInv hinv k) (k := BitVec.ofNat 8 k) (by rwa [hidx]) hread
    have hcons : loads t (k + 1) = loads t k ++ [.srcLd t (BitVec.ofNat 8 k)] := by
      simp [loads, List.range_succ]
    rw [hcons, execAll_append_of_next (ih hlt.le), execAll_singleton hload, putNode_putNode,
      writeElem_overlay (hch.trans hbuf.symm) hidx (List.getElem?_eq_getElem _)]
    rfl

/-- The loads of a whole tick leave `ch` in the snapshot. -/
theorem execAll_all_loads :
    execAll (loads t s.params.nCh) s = .next (s.putNode (.tx { n with txBuf := n.ch }) []) := by
  obtain ⟨hch, hbuf, -⟩ := txInv_iff.mp hinv
  have hloads := execAll_loads (t := t) hn hlegal hinv le_rfl
  rwa [← hch, overlay_full (hch.trans hbuf.symm), hch] at hloads

end SourceTick

theorem snapshot_txInv {p : Params} {n : TxNode} (hinv : TxInv p n) : TxInv p { n with txBuf := n.ch } := by
  obtain ⟨hch, -, hrest⟩ := txInv_iff.mp hinv
  exact txInv_iff.mpr ⟨hch, hch, hrest⟩

theorem expandSrcTick_eq (p : Params) (t : Time) : expandSrcTick p t = .srcChk t :: (loads t p.nCh ++ [.srcSend t]) :=
  rfl

theorem link_active_or_lost (l : LinkState) : l = .active ∨ l = .lost := by
  cases l with
  | active => exact .inl rfl
  | lost => exact .inr rfl

/-- Settles O53: the check decides the link, the loads do not look at it, and the send does. -/
theorem sourceTickSendsTheFrame : Obligations.SourceTickSendsTheFrame := by
  intro s n t hn hlegal hinv
  rw [expandSrcTick_eq]
  by_cases hloss : s.params.srcLossThreshold < (t - n.lastEdgeTime).toNat
  · have hcheck := exec_srcChk_of_exceeds hn hlegal hinv hloss
    have hloads := execAll_all_loads (t := t) (n := { n with srcLink := .lost })
      (putNode_node s _ (statusRecord t n.srcLink .lost)) hlegal hinv
    have hsend := exec_srcSend_of_lost (t := t) (n := { n with txBuf := n.ch, srcLink := .lost })
      (putNode_node (s.putNode (.tx { n with srcLink := .lost }) (statusRecord t n.srcLink .lost)) _ [])
      hlegal (snapshot_txInv hinv) rfl
    rw [if_pos hloss, execAll_cons_of_next hcheck]
    refine (execAll_append_of_next hloads).trans ((execAll_singleton hsend).trans ?_)
    rw [putNode_putNode, List.append_nil, statusRecord_to_lost]
    rfl
  · have hcheck := exec_srcChk_of_within hn hlegal hinv (not_lt.mp hloss)
    have hloads := execAll_all_loads (t := t) hn hlegal hinv
    rw [if_neg hloss, execAll_cons_of_next hcheck, execAll_append_of_next hloads]
    obtain hlink | hlink := link_active_or_lost n.srcLink
    · have hsend := exec_srcSend_of_active (t := t) (putNode_node s (.tx { n with txBuf := n.ch }) []) hlegal
        (snapshot_txInv hinv) hlink
      rw [execAll_singleton hsend, putNode_putNode, payloadBytes_eq_ofNat, if_pos hlink, List.nil_append]
      rfl
    · have hsend := exec_srcSend_of_lost (t := t) (putNode_node s (.tx { n with txBuf := n.ch }) []) hlegal
        (snapshot_txInv hinv) hlink
      rw [execAll_singleton hsend, State.putNode, if_neg fun hactive => not_active_of_lost hlink hactive]

/-! ### A snapshot of two frames (R61) -/

/-- The registers after a load of the value `v` into element `k`. -/
def loaded (k : Index) (v : Channel) (n : TxNode) : TxNode := { n with txBuf := writeElem n.txBuf k v }

section Loaded
variable {k : Index} {v : Channel} {n : TxNode}

@[simp] theorem loaded_ch : (loaded k v n).ch = n.ch := rfl
@[simp] theorem loaded_decIdx : (loaded k v n).decIdx = n.decIdx := rfl
@[simp] theorem loaded_lastEdgeTime : (loaded k v n).lastEdgeTime = n.lastEdgeTime := rfl

theorem loaded_txBuf_get (h : k.toNat < n.txBuf.length) : (loaded k v n).txBuf[k.toNat]? = some v :=
  writeElem_get h

theorem loaded_txBuf_get_ne {j : Nat} (h : j ≠ k.toNat) : (loaded k v n).txBuf[j]? = n.txBuf[j]? :=
  writeElem_get_ne h

end Loaded

/-- Settles O55: the two edges store the two intervals, and the second load comes after them. -/
theorem snapshotMayMixTwoFrames : Obligations.SnapshotMayMixTwoFrames := by
  intro s n t d0 d1 hn hlegal hinv htwo hidx hlast hd0 hd1
  subst hlast
  obtain ⟨hch, hbuf, -⟩ := txInv_iff.mp hinv
  have hzero : 0 < n.ch.length := by omega
  have hread : readElem n.ch 0 = some n.ch[0] := readElem_of_lt (i := 0) hzero
  have hload := exec_srcLd_of_readElem (t := n.lastEdgeTime) (k := 0) hn hlegal hinv (hch ▸ hzero) hread
  have hinv' : TxInv s.params (loaded 0 n.ch[0] n) := writeElem_txBuf_txInv hinv 0 n.ch[0]
  have hindex : (loaded 0 n.ch[0] n).decIdx.toNat = 0 := by rw [loaded_decIdx, hidx]; rfl
  have hds : ∀ d ∈ [d0, d1], d.toNat ≤ s.params.syncThreshold := by simp [hd0, hd1]
  have hedges := execAll_edgesAt_timesAfter (putNode_node s (.tx (loaded 0 n.ch[0] n)) []) hlegal hinv' hds
  have hget0 := afterPulses_ch_get_of_zero (n := loaded 0 n.ch[0] n) (ds := [d0, d1]) (k := 0) hlegal hch hindex rfl
    (hch ▸ hzero)
  have hget1 := afterPulses_ch_get_of_zero (n := loaded 0 n.ch[0] n) (ds := [d0, d1]) (k := 1) hlegal hch hindex rfl htwo
  have hinv'' := afterPulses_txInv hlegal hinv' hds
  obtain ⟨-, hbuf'', -⟩ := txInv_iff.mp hinv''
  have hload' := exec_srcLd_of_readElem (t := n.lastEdgeTime + d0 + d1) (k := 1)
    (putNode_node (s.putNode (.tx (loaded 0 n.ch[0] n)) []) (.tx (afterPulses s.params (loaded 0 n.ch[0] n) [d0, d1])) [])
    hlegal hinv'' htwo hget1
  refine ⟨_, loaded 1 (d1.setWidth 16) (afterPulses s.params (loaded 0 n.ch[0] n) [d0, d1]),
    (execAll_cons_of_next hload).trans ((execAll_append_of_next hedges).trans (execAll_singleton hload')), rfl, ?_, ?_,
    ?_⟩
  · rw [loaded_txBuf_get_ne (by decide), afterPulses_txBuf]
    exact (loaded_txBuf_get (k := 0) (hbuf.symm ▸ hch ▸ hzero)).trans (List.getElem?_eq_getElem hzero).symm
  · have hget := loaded_txBuf_get (k := 1) (v := d1.setWidth 16) (hbuf''.symm ▸ htwo)
    exact (congrArg _ hget).trans (congrArg some (interval16_toNat hlegal hd1))
  · rw [loaded_ch, hget0, Option.map_some, interval16_toNat hlegal hd0]

end Sys2Proof.Proofs
end

section
/-! PROOFS. The expansions of the pseudo-operations, one by one (spec/30_encoding.md R79, R80; spec/20_memory.md R53). -/

namespace Sys2Proof.Proofs

open Sys2Proof.Machine Sys2Proof.Laws

/-- R80: the raw value of a channel whose two bytes were delivered. -/
theorem payloadValue_toNat {fresh : Nat} {bytes : List Byte} {k : Nat} {low high : Byte}
    (hlow : bytes[2 * k]? = some low) (hhigh : bytes[2 * k + 1]? = some high) :
    (payloadValue fresh bytes k).toNat = low.toNat + 256 * high.toNat := by
  simp only [payloadValue, payloadByte, hlow, hhigh, fromLe16_toNat]

/-- The stores of an accepted payload. -/
def stores (p : Params) (fresh : Nat) (t : Time) (bytes : List Byte) : List Instr :=
  (List.range p.nCh).map (fun k => .rxSt t (BitVec.ofNat 8 k) (payloadValue fresh bytes k))

section Expand
variable {p : Params} (fresh : Nat) (t : Time)

theorem loads_length (k : Nat) : (loads t k).length = k := by rw [loads, List.length_map, List.length_range]

theorem loads_get {j k : Nat} (h : j < k) : (loads t k)[j]? = some (.srcLd t (BitVec.ofNat 8 j)) := by
  rw [loads, List.getElem?_map, List.getElem?_range h, Option.map_some]

theorem stores_length (bytes : List Byte) : (stores p fresh t bytes).length = p.nCh := by
  rw [stores, List.length_map, List.length_range]

theorem stores_get (bytes : List Byte) {k : Nat} (hk : k < p.nCh) :
    (stores p fresh t bytes)[k]? = some (.rxSt t (BitVec.ofNat 8 k) (payloadValue fresh bytes k)) := by
  rw [stores, List.getElem?_map, List.getElem?_range hk, Option.map_some]

theorem expandRxPayload_right {len : Nat} (h : len = 2 * p.nCh) (bytes : List Byte) :
    expandRxPayload p fresh t len bytes = .rxHdr t (lengthField len) :: stores p fresh t bytes := by
  rw [expandRxPayload, Params.payloadLen, if_pos h, stores]

theorem expandRxPayload_wrong {len : Nat} (h : len ≠ 2 * p.nCh) (bytes : List Byte) :
    expandRxPayload p fresh t len bytes = [.rxHdr t (lengthField len)] := by
  rw [expandRxPayload, Params.payloadLen, if_neg h]

end Expand

/-- Settles O56: position by position in the two lists. -/
theorem pseudoOperationsExpand : Obligations.PseudoOperationsExpand := by
  intro p fresh t hlegal
  simp only [expand]
  refine ⟨⟨?_, rfl, fun k hk => ⟨_, index_toNat hlegal hk, ?_⟩, ?_⟩, fun len bytes => ⟨⟨lengthField len,
    lengthField_toNat len, rfl⟩, fun hlen => ?_, fun hlen => ⟨?_, fun k hk => ⟨_, payloadValue fresh bytes k,
    index_toNat hlegal hk, ?_, fun low high => payloadValue_toNat⟩⟩⟩⟩
  · rw [expandSrcTick_eq, List.length_cons, List.length_append, loads_length]
    rfl
  · rw [expandSrcTick_eq, List.getElem?_cons_succ, List.getElem?_append_left (by rwa [loads_length]), loads_get t hk]
  · rw [expandSrcTick_eq, List.getElem?_cons_succ, List.getElem?_append_right (loads_length t _).le, loads_length,
      Nat.sub_self]
    rfl
  · rw [expandRxPayload_wrong fresh t hlen]
    rfl
  · rw [expandRxPayload_right fresh t hlen, List.length_cons, stores_length]
  · rw [expandRxPayload_right fresh t hlen, List.getElem?_cons_succ, stores_get fresh t bytes hk]

end Sys2Proof.Proofs
end

section
/-! PROOFS. The steps that deliver a payload (spec/30_encoding.md section 4, R80; spec/42_sink_supervisor.md section
1). -/

namespace Sys2Proof.Proofs

open Sys2Proof.Machine Sys2Proof.Laws

/-! ### Runs of the step -/

section Run
variable {M : Host.Core} {s t : M.State} {j k : Nat}

theorem run_succ_of_next (h : M.step s = .next t) : M.run (k + 1) s = M.run k t := by
  rw [Host.Core.run, h]

/-- A run that completes is continued from where it has got to. -/
theorem run_add_of_next (h : M.run j s = .next t) : M.run (j + k) s = M.run k t := by
  induction j generalizing s with
  | zero =>
    obtain rfl : s = t := by simpa [Host.Core.run] using h
    rw [Nat.zero_add]
  | succ j ih =>
    rw [Host.Core.run] at h
    rw [Nat.succ_add]
    cases hstep : M.step s with
    | next u =>
      rw [hstep] at h
      exact (run_succ_of_next hstep).trans (ih h)
    | fault f => rw [hstep] at h; cases h
    | refused r => rw [hstep] at h; cases h

end Run

/-! ### The header -/

section Delivery
variable {s : State} {n : RxNode} {t : Time} (hn : s.node = .rx n) (hlegal : Legal s.params) (hinv : RxInv s.params n)
  (hstarted : s.monitor.started = true) (hwindow : s.monitor.window = none)
  (htime : (t - s.monitor.now).toNat < 2 ^ 31) (hdue : t = n.tmrDeadline ∨ 2 ^ 31 ≤ (t - n.tmrDeadline).toNat)

include hn hdue in
theorem not_overdue_of_rx : s.node.overdue t = false :=
  overdue_eq_false_iff.mpr fun m hm => by
    obtain rfl := Node.rx.inj (hn.symm.trans hm)
    exact hdue

include hn in
theorem role_of_rx : s.role = .rx := by rw [State.role, hn, role_rx]

include hn hlegal hstarted hwindow htime hdue in
/-- A header outside a payload is run, and opens the window if its length is right. -/
theorem step_rxHdr {len : BitVec 16} {rest : List EventWord} (hpending : s.pending = encode (.rxHdr t len) :: rest) :
    step s = exec (.rxHdr t len) (s.accept rest
      { started := true, now := t, window := if len.toNat = 2 * s.params.nCh then some 0 else none }) := by
  refine step_eq_exec hlegal hpending (decodeFor_encode rfl (by rw [role_of_rx hn]; rfl)) hstarted htime
    (not_overdue_of_rx hn hdue) ?_
  rw [hwindow, nextWindow_rxHdr]

end Delivery

/-- R8, R9(a): `PAYLOAD_LEN` fits the length field, so no other length is written as it. -/
theorem lengthField_eq_payloadLen_iff {p : Params} (hlegal : Legal p) {len : Nat} :
    (lengthField len).toNat = 2 * p.nCh ↔ len = 2 * p.nCh := by
  have hfit := nCh_le_of_legal hlegal
  rw [lengthField_toNat]
  omega

/-- Settles O57: the one word of the expansion is a header that neither opens the window nor writes a register. -/
theorem wrongLengthPayloadChangesNothing : Obligations.WrongLengthPayloadChangesNothing := by
  intro s n t fresh len bytes rest hn hlegal hinv hlen hstarted hwindow htime hdue hpending
  rw [expand, expandRxPayload_wrong fresh t hlen] at hpending
  have hwrong := mt (lengthField_eq_payloadLen_iff hlegal).mp hlen
  have hstep := step_rxHdr hn hlegal hstarted hwindow htime hdue hpending
  rw [if_neg hwrong] at hstep
  exact hstep.trans (exec_rxHdr_of_ne_payloadLen (s := s.accept rest _) hn hlegal hinv hwrong)

/-! ### The stores -/

/-- The values an accepted payload stores. -/
def storedValues (p : Params) (fresh : Nat) (bytes : List Byte) : List Channel :=
  (List.range p.nCh).map (fun k => clamp p (payloadValue fresh bytes k))

theorem storedValues_length (p : Params) (fresh : Nat) (bytes : List Byte) :
    (storedValues p fresh bytes).length = p.nCh := by
  rw [storedValues, List.length_map, List.length_range]

theorem storedValues_get {p : Params} {fresh k : Nat} (bytes : List Byte) (hk : k < p.nCh) :
    (storedValues p fresh bytes)[k]? = some (clamp p (payloadValue fresh bytes k)) := by
  rw [storedValues, List.getElem?_map, List.getElem?_range hk, Option.map_some]

/-- The state after the header and the first `j` stores of an accepted payload that was to come in `s`. -/
def afterStores (s : State) (n : RxNode) (t : Time) (fresh : Nat) (bytes : List Byte) (rest : List EventWord)
    (j : Nat) : State :=
  { s with
    node := .rx { n with lastRxTime := t, ch := overlay j (storedValues s.params fresh bytes) n.ch }
    monitor := { started := true, now := t, window := if j = s.params.nCh then none else some (BitVec.ofNat 8 j) }
    pending := ((stores s.params fresh t bytes).drop j).map encode ++ rest }

section Stores
variable {s : State} {n : RxNode} {t : Time} {fresh : Nat} {bytes : List Byte} {rest : List EventWord}
  (hn : s.node = .rx n) (hlegal : Legal s.params) (hinv : RxInv s.params n)
  (hdue : t = n.tmrDeadline ∨ 2 ^ 31 ≤ (t - n.tmrDeadline).toNat)

/-- The words still to come begin with the `j`th store. -/
theorem afterStores_pending {j : Nat} (hj : j < s.params.nCh) :
    (afterStores s n t fresh bytes rest j).pending =
      encode (.rxSt t (BitVec.ofNat 8 j) (payloadValue fresh bytes j)) ::
        (((stores s.params fresh t bytes).drop (j + 1)).map encode ++ rest) := by
  obtain ⟨hlt, hget⟩ := List.getElem?_eq_some_iff.mp (stores_get fresh t bytes hj)
  simp only [afterStores, List.drop_eq_getElem_cons hlt, hget, List.map_cons, List.cons_append]

include hlegal in
/-- The window asks for the `j`th store, and for the next one after it if there is one. -/
theorem afterStores_nextWindow {j : Nat} (hj : j < s.params.nCh) (raw : Channel) :
    nextWindow s.params (afterStores s n t fresh bytes rest j).monitor.window (.rxSt t (BitVec.ofNat 8 j) raw) =
      some (if j + 1 = s.params.nCh then none else some (BitVec.ofNat 8 (j + 1))) := by
  rw [afterStores, if_neg hj.ne, nextWindow_rxSt_self, index_toNat hlegal hj, BitVec.ofNat_add]
  rfl

include hlegal hinv in
/-- The store itself takes the registers to the next state's, whatever the trace and the monitor. -/
theorem exec_store_afterStores {j : Nat} (hj : j < s.params.nCh) (hinvs : (afterStores s n t fresh bytes rest j).Inv)
    (ws : List EventWord) (m : Monitor) :
    exec (.rxSt t (BitVec.ofNat 8 j) (payloadValue fresh bytes j))
      ((afterStores s n t fresh bytes rest j).accept ws m) =
      .next ((afterStores s n t fresh bytes rest (j + 1)).accept ws m) := by
  have hidx := index_toNat hlegal hj
  obtain ⟨-, hnode⟩ := hinvs
  obtain ⟨hch, -⟩ := rxInv_iff.mp hinv
  have hlen : (storedValues s.params fresh bytes).length = n.ch.length := by rw [storedValues_length, hch]
  have hwrite := writeElem_overlay hlen hidx (storedValues_get bytes hj)
  refine (exec_rxSt_eq (s := (afterStores s n t fresh bytes rest j).accept ws m) rfl hlegal hnode
    (by rwa [hidx])).trans ?_
  rw [putNode_nil]
  conv_rhs => rw [afterStores, ← hwrite]
  rfl

include hlegal hinv hdue in
/-- The next store is the one the window asks for, and it is run. -/
theorem step_afterStores {j : Nat} (hj : j < s.params.nCh)
    (hinvs : (afterStores s n t fresh bytes rest j).Inv) :
    step (afterStores s n t fresh bytes rest j) = .next (afterStores s n t fresh bytes rest (j + 1)) := by
  have hwf : (Instr.rxSt t (BitVec.ofNat 8 j) (payloadValue fresh bytes j)).WellFormed s.params.nCh :=
    decide_eq_true (by rwa [index_toNat hlegal hj])
  have hstep := step_eq_exec (s := afterStores s n t fresh bytes rest j) hlegal (afterStores_pending hj)
    (decodeFor_encode hwf rfl) rfl (by simp [afterStores, Instr.time]) (not_overdue_of_rx rfl hdue)
    (afterStores_nextWindow hlegal hj _)
  exact hstep.trans (exec_store_afterStores hlegal hinv hj hinvs _ _)

include hn hlegal hinv hdue in
/-- The header and the stores before the `j`th, one step each. -/
theorem run_afterStores (hstarted : s.monitor.started = true) (hwindow : s.monitor.window = none)
    (htime : (t - s.monitor.now).toNat < 2 ^ 31)
    (hpending : s.pending = (expandRxPayload s.params fresh t (2 * s.params.nCh) bytes).map encode ++ rest) {j : Nat}
    (hj : j ≤ s.params.nCh) :
    core.run (j + 1) s = .next (afterStores s n t fresh bytes rest j) ∧ (afterStores s n t fresh bytes rest j).Inv := by
  induction j with
  | zero =>
    rw [expandRxPayload_right fresh t rfl] at hpending
    obtain ⟨⟨hpos, -⟩, -⟩ := legal_iff.mp hlegal
    have hright := (lengthField_eq_payloadLen_iff hlegal).mpr rfl
    have hstep := step_rxHdr hn hlegal hstarted hwindow htime hdue hpending
    have hexec := exec_rxHdr_of_payloadLen (t := t)
      (s := s.accept ((stores s.params fresh t bytes).map encode ++ rest) ⟨true, t, some 0⟩) hn hlegal hinv hright
    rw [if_pos hright] at hstep
    have hnext : step s = .next (afterStores s n t fresh bytes rest 0) := by
      refine hstep.trans (hexec.trans ?_)
      rw [putNode_nil, afterStores, if_neg (by omega)]
      rfl
    have hinvs : s.Inv := ⟨hlegal, by rw [hn]; exact hinv⟩
    exact ⟨run_succ_of_next hnext, everyStepKeepsInvariants _ _ hinvs hnext⟩
  | succ j ih =>
    obtain ⟨hrun, hinvs⟩ := ih (by omega)
    have hnext := step_afterStores hlegal hinv hdue hj hinvs
    exact ⟨(run_add_of_next hrun).trans (run_succ_of_next hnext), everyStepKeepsInvariants _ _ hinvs hnext⟩

end Stores

/-- Settles O54: after the last store `ch` is the stored values, the window is shut and the words are used up. -/
theorem payloadDeliveryStoresClampedValues : Obligations.PayloadDeliveryStoresClampedValues := by
  intro s n t fresh bytes rest hn hlegal hinv hstarted hwindow htime hdue hpending
  obtain ⟨hrun, -⟩ := run_afterStores hn hlegal hinv hdue hstarted hwindow htime hpending le_rfl
  have hlen := storedValues_length s.params fresh bytes
  have hfull : overlay s.params.nCh (storedValues s.params fresh bytes) n.ch = storedValues s.params fresh bytes := by
    obtain ⟨hch, -⟩ := rxInv_iff.mp hinv
    have hall := overlay_full (hlen.trans hch.symm)
    rwa [hlen] at hall
  have hused : (stores s.params fresh t bytes).drop s.params.nCh = [] :=
    List.drop_eq_nil_of_le (stores_length fresh t bytes).le
  rw [afterStores, hfull, hused, if_pos rfl] at hrun
  refine ⟨_, hrun, hlen, fun k low high hk hlow hhigh => ?_⟩
  obtain ⟨hband, hfit⟩ := channelBand_of_legal hlegal
  rw [storedValues_get bytes hk, Option.map_some, clamp_toNat hband hfit, payloadValue_toNat hlow hhigh]

end Sys2Proof.Proofs
end
